-- ==== Sys2Proof/Word.lean ====
section
/-! DEFINITION. The data types of the block: a byte of the wire, a 16-bit Modbus register or field, a 32-bit
reading (00_scope.md R10). Times, lengths and counts are natural numbers (R11, R14). -/

namespace Sys2Proof

/-- `u8` of R10. -/
abbrev Byte := BitVec 8

/-- `u16` of R10: an address, a count, one Modbus register, the CRC accumulator. -/
abbrev Word := BitVec 16

/-- `u32` of R10: the IEEE-754 bit pattern of one reading, which the block only transports (R160). -/
abbrev Long := BitVec 32

end Sys2Proof
end

