-- ==== Sys2Proof/Config.lean ====
section
/-! DEFINITION. What a build or a deployment fixes (00_scope.md R7, R8), the answers the outside world gives to the
block's calls (R12, R34), and the free values: constants with no body, of which nothing can be proved. -/

namespace Sys2Proof

/-- The parameters of a run that no register holds. They never change while the block runs (R244, U8). -/
structure Config where
  /-- `BAUD`, bits per second, a positive number (R7). -/
  baud : Nat
  /-- `TICKS_PER_BIT` (R8, R14). -/
  ticksPerBit : Nat
  /-- `none`: the tick comes from the bit clock. `some f`: a free-running tick of `f` ticks per second (R186). -/
  tickHz : Option Nat
  /-- `KNOWN`, as the sums `address + offset`, taken as natural numbers, that the Register Value Source recognises
  (R7, R59, R154). A collaborator that wraps at 16 bits is a set that holds sums above 65535 too (U5). -/
  known : List Nat
  /-- `READ_TIMEOUT` (R7): the transport's bound on a read. No rule depends on it, and no time passes in a read (R275). -/
  readTimeout : Nat
  deriving DecidableEq, Repr

/-- What the transport answers to `available_byte_count()`: the number of waiting bytes, or a failure (R12, U7). Neither has a
side effect: the waiting bytes stay as they are (R58). -/
inductive AvailAnswer where
  | ok
  | fail
  deriving DecidableEq, Repr, Inhabited

/-- What the transport answers to `read(n)`: some number of bytes, never more than `n`, or a failure, after
which its queue may hold anything (R12, R65, R202, U7, U11; log 13). -/
inductive ReadAnswer where
  | bytes (k : Nat)
  | fail (left : List Byte)
  deriving DecidableEq, Repr, Inhabited

/-- How one wait at the silence gate went: how many ticks past the earliest legal time it returned (R188, U3), and
which bytes reached the transport meanwhile (R34, R194). -/
structure GateAnswer where
  late : Nat
  arrived : List Byte
  deriving DecidableEq, Repr, Inhabited

/-- How one `write` went: it took `ticks`, and either sent the whole frame or failed after the first `gone` bytes of
it (R12, R189, U3, U7). `arrived` are the bytes that reached the receive queue meanwhile, an echo included (R66, U12). -/
inductive WriteAnswer where
  | ok (ticks : Nat) (arrived : List Byte)
  | fail (ticks : Nat) (gone : Nat) (arrived : List Byte)
  deriving DecidableEq, Repr, Inhabited

/-- FREE VALUE: an answer of the transport to `available_byte_count()` that no script fixes (U7). -/
opaque Config.freeAvail : Nat → AvailAnswer

/-- FREE VALUE: an answer of the transport to `read` that no script fixes (U7, U11). -/
opaque Config.freeRead : Nat → ReadAnswer

/-- FREE VALUE: a wait at the gate that no script fixes (U3). -/
opaque Config.freeGate : Nat → GateAnswer

/-- FREE VALUE: a write that no script fixes (U3, U7). -/
opaque Config.freeWrite : Nat → WriteAnswer

/-- FREE VALUE: the reading a known slot returns, any 32-bit pattern (R154, U10). -/
opaque Config.freeReading : Nat → Long

/-- FREE VALUE: `S.crc` after a power-on reset (R36, U1). -/
opaque Config.freeCrc : Nat → Word

/-- FREE VALUE: `CFG_UNIT_ID` after a power-on reset (R36, U2). -/
opaque Config.freeUnitId : Nat → Byte

/-- FREE PARAMETER: the address map of the deployment, which the source does not give (R59, N4). -/
opaque Config.knownMap : List Nat

/-- FREE PARAMETER: `READ_TIMEOUT`, which the source names without a value (R7, N11). -/
opaque Config.readTimeoutOpen : Nat

/-- The parameters at reset: the default baud rate 9600 (R6), the default `TICKS_PER_BIT` 1 (R8), the tick taken from
the bit clock, and the address map left open. -/
def Config.standard : Config where
  baud := 9600
  ticksPerBit := 1
  tickHz := none
  known := Config.knownMap
  readTimeout := Config.readTimeoutOpen

end Sys2Proof
end

