-- ==== Sys2Proof/Machine/Constants.lean ====
section
/-! DEFINITION. The constants the source fixes (00_scope.md R6), and the byte-order helpers of R10 and R11. -/

namespace Sys2Proof.Machine

/-- `FRAME_LEN`: the length in bytes of every request frame. -/
def frameLen : Nat := 8

/-- `CRC_INIT`: the accumulator before the first byte. -/
def crcInit : Word := 0xFFFF

/-- `CRC_POLY`: the constant of the CRC bit loop. -/
def crcPoly : Word := 0xA001

/-- `FN_READ_INPUT`: the only supported function code. -/
def fnReadInput : Byte := 0x04

/-- `MAX_COUNT`: the largest accepted register count. -/
def maxCount : Word := 125

/-- `EXC_FLAG`: the bit set in the function byte of an exception response. -/
def excFlag : Byte := 0x80

/-- `EXC_ILLEGAL_FUNCTION`. -/
def excIllegalFunction : Byte := 0x01

/-- `EXC_ILLEGAL_DATA_VALUE`. -/
def excIllegalDataValue : Byte := 0x03

/-- `SILENCE_BITS`: the silence threshold in bit times. -/
def silenceBits : Nat := 38

/-- The most registers a normal response can carry, `MAX_COUNT + 1` (R25, R156). -/
def maxRegs : Nat := 126

/-- The most registers `ENC.NORMAL` may be given at all: one more and `byte_count` leaves a u8 (R166, U16). -/
def maxEncodable : Nat := 127

/-- `hi8(v) = v[15:8]` (R10). -/
def hi8 (v : Word) : Byte := v.extractLsb' 8 8

/-- `lo8(v) = v[7:0]` (R10). -/
def lo8 (v : Word) : Byte := v.extractLsb' 0 8

/-- `{hi, lo}`: the big-endian pair of two bytes (R10, R11). -/
def be16 (hi lo : Byte) : Word := hi ++ lo

/-- `bytes_be16(v)`: high byte first (R11). -/
def bytesBe16 (v : Word) : List Byte := [hi8 v, lo8 v]

/-- The two registers of a 32-bit reading, the more significant half first (R53, R151). -/
def regsOfLong (v : Long) : List Word := [v.extractLsb' 16 16, v.extractLsb' 0 16]

end Sys2Proof.Machine
end

