-- ==== Sys2Proof/Syntax.lean ====
section
/-! DEFINITION. The Request record (10_state.md R24) and the one inductive of what the block does: one constructor per
row of spec/opcode_table.json, the 5 request rows, the 3 response rows and the 23 operations (30_encoding.md R82, R84). -/

namespace Sys2Proof

/-- `Request` (R24): the four decoded fields and the exact 8 bytes they were parsed from. -/
structure Request where
  unitId : Byte
  functionCode : Byte
  address : Word
  count : Word
  raw : List Byte
  deriving DecidableEq, Repr

/-- Which side of the transport failed: the operand of `ENG.XFAIL` (R201). -/
inductive Side where
  | read
  | write
  deriving DecidableEq, Repr

/-- The rows of the opcode table. -/
inductive Instr where
  /-- `REQ.INVALID`: an 8-byte window whose CRC field does not match (R124); every field as received. -/
  | reqInvalid (unitId functionCode : Byte) (address count : Word) (crcLo crcHi : Byte)
  /-- `REQ.FOREIGN`: CRC valid, another unit (R206). -/
  | reqForeign (unitId functionCode : Byte) (address count : Word)
  /-- `REQ.UNSUPPORTED_FUNCTION`: CRC valid, this unit, a function code other than 4 (R207). -/
  | reqUnsupportedFunction (unitId functionCode : Byte) (address count : Word)
  /-- `REQ.READ_INPUT_REGISTERS.COUNT_TOO_LARGE`: function 4, `count > 125` (R208). -/
  | reqCountTooLarge (unitId : Byte) (address count : Word)
  /-- `REQ.READ_INPUT_REGISTERS`: function 4, `count <= 125` (R209). -/
  | reqReadInputRegisters (unitId : Byte) (address count : Word)
  /-- `RSP.NORMAL` (R72, R165): the normal response that carries `regs`. -/
  | rspNormal (unitId : Byte) (regs : List Word)
  /-- `RSP.EXC_ILLEGAL_FUNCTION` (R73, R231): bits 6..0 of the function byte; bit 7 is 1. -/
  | rspExcIllegalFunction (unitId : Byte) (function7 : BitVec 7)
  /-- `RSP.EXC_ILLEGAL_DATA_VALUE` (R73, R232): the function byte is 0x84. -/
  | rspExcIllegalDataValue (unitId : Byte)
  /-- `CRC.STEP` (R100). -/
  | crcStep (acc : Word) (b : Byte)
  /-- `CRC.RAW` (R101). -/
  | crcRaw (data : List Byte)
  /-- `CRC.COMPUTE` (R102). -/
  | crcCompute (data : List Byte)
  /-- `CRC.VERIFY` (R103). -/
  | crcVerify (data : List Byte) (expected : Word)
  /-- `CRC.TABLE` (R104). -/
  | crcTable
  /-- `CRC.TSTEP` (R105). -/
  | crcTstep (acc : Word) (b : Byte)
  /-- `ASM.FEED` (R120, R121). -/
  | asmFeed (chunk : List Byte)
  /-- `ASM.FLUSH` (R129). -/
  | asmFlush
  /-- `DEC.DECODE` (R140). -/
  | decDecode (window : List Byte)
  /-- `RVS.PACK` (R150), the call across the block's boundary; `out` is `S.regs`. -/
  | rvsPack (address offset : Word)
  /-- `ENG.ASSEMBLE` (R155). -/
  | engAssemble (address count : Word)
  /-- `ENC.NORMAL` (R165). -/
  | encNormal (unitId functionCode : Byte) (regs : List Word)
  /-- `ENC.EXCEPTION` (R169). -/
  | encException (unitId functionCode exceptionCode : Byte)
  /-- `SIL.THRESH` (R185, R186). -/
  | silThresh
  /-- `SIL.EXPIRED` (R187). -/
  | silExpired
  /-- `SIL.GATE` (R188). -/
  | silGate
  /-- `SIL.MARK` (R189). -/
  | silMark (tEnd : Nat)
  /-- `ENG.POLL` (R201). -/
  | engPoll
  /-- `ENG.XFAIL` (R201, R238). -/
  | engXfail (side : Side)
  /-- `ENG.STATS` (R205). -/
  | engStats (r : Request)
  /-- `ENG.DISPATCH` (R206). -/
  | engDispatch (r : Request)
  /-- `ENG.SEND` (R210). -/
  | engSend (resp : List Byte)
  /-- `ENG.RESET` (R261). -/
  | engReset
  deriving DecidableEq, Repr

end Sys2Proof
end

