-- ==== Sys2Proof/Machine/Operands.lean ====
section
/-! DEFINITION. The operand forms: the byte layouts of the three frame formats (30_encoding.md R70 to R77), the window
read from the receive buffer (00_scope.md R12), the Request of four fields (R24), and the packing of a reading (R151). -/

namespace Sys2Proof

open Sys2Proof.Machine

/-- The six bytes of a request before its CRC field, in wire order (R70, R71, R51). -/
def requestBody (unitId functionCode : Byte) (address count : Word) : List Byte :=
  [unitId, functionCode] ++ bytesBe16 address ++ bytesBe16 count

/-- The whole 8-byte frame of a request with a valid CRC field: format REQ8 (R71). -/
def requestFrame (unitId functionCode : Byte) (address count : Word) : List Byte :=
  requestBody unitId functionCode address count ++ crcWire (requestBody unitId functionCode address count)

/-- The Request that a valid frame with these fields decodes to (R24, R141). -/
def Request.ofFields (unitId functionCode : Byte) (address count : Word) : Request where
  unitId := unitId
  functionCode := functionCode
  address := address
  count := count
  raw := requestFrame unitId functionCode address count

/-- The bytes of a RegisterBlock, each register high byte first, in block order (R72, R167). -/
def bytesOfRegs (regs : List Word) : List Byte :=
  regs.flatMap bytesBe16

/-- The registers a payload carries: `bytesOfRegs` read back, two bytes a register. -/
def regsOfBytes : List Byte → List Word
  | h :: l :: rest => be16 h l :: regsOfBytes rest
  | _ => []

/-- Everything before the CRC of a normal response (R72, R165): `byte_count` is `(2 * len(regs))[7:0]` (R166). -/
def normalBody (unitId functionCode : Byte) (regs : List Word) : List Byte :=
  [unitId, functionCode, BitVec.ofNat 8 (2 * regs.length)] ++ bytesOfRegs regs

/-- Format RSPN, the normal response (R72). -/
def normalFrame (unitId functionCode : Byte) (regs : List Word) : List Byte :=
  normalBody unitId functionCode regs ++ crcWire (normalBody unitId functionCode regs)

/-- Everything before the CRC of an exception response (R73): bit 7 of the function byte is set (R76). -/
def exceptionBody (unitId functionCode exceptionCode : Byte) : List Byte :=
  [unitId, functionCode ||| excFlag, exceptionCode]

/-- Format RSPX, the exception response (R73). -/
def exceptionFrame (unitId functionCode exceptionCode : Byte) : List Byte :=
  exceptionBody unitId functionCode exceptionCode ++ crcWire (exceptionBody unitId functionCode exceptionCode)

/-- `MemRead(addr, n)` on the receive buffer, defined when the `n` bytes exist (R12). -/
def memRead (addr n : Nat) (buf : List Byte) : Option (List Byte) :=
  if addr + n ≤ buf.length then some ((buf.drop addr).take n) else none

/-- What `RVS.PACK` appends: the two halves of a known reading, or one zero register (R151, R153, R154). -/
def packedRegs : Option Long → List Word
  | some v => regsOfLong v
  | none => [0]

end Sys2Proof
end

