-- ==== Sys2Proof/WellFormed.lean ====
section
/-! DEFINITION. Which terms of `Instr` the opcode table's rows and the operations' operand clauses admit. A request row's
proviso is its `condition` in spec/opcode_table.json; an operation's is the *Operands* clause of its rule (R15). -/

namespace Sys2Proof

open Sys2Proof.Machine

/-- R24: `raw` is the frame the other four fields were parsed from, and its CRC is valid. -/
def Request.wellFormed (r : Request) : Bool :=
  r == Request.ofFields r.unitId r.functionCode r.address r.count

/-- The provisos of a row, for a block whose `UNIT_ID` is `unit`. -/
def Instr.wellFormed (unit : Byte) : Instr → Bool
  | .reqInvalid u f a n lo hi => crcWire (requestBody u f a n) != [lo, hi]
  | .reqForeign u _ _ _ => u != unit
  | .reqUnsupportedFunction u f _ _ => u == unit && f != fnReadInput
  | .reqCountTooLarge u _ n => u == unit && decide (maxCount < n)
  | .reqReadInputRegisters u _ n => u == unit && decide (n ≤ maxCount)
  | .rspNormal _ regs => decide (regs.length ≤ maxRegs)
  | .rspExcIllegalFunction _ _ => true
  | .rspExcIllegalDataValue _ => true
  | .crcStep _ _ => true
  | .crcRaw _ => true
  | .crcCompute _ => true
  | .crcVerify _ _ => true
  | .crcTable => true
  | .crcTstep _ _ => true
  | .asmFeed _ => true
  | .asmFlush => true
  | .decDecode _ => true
  | .rvsPack _ _ => true
  | .engAssemble _ n => decide (n ≤ maxCount)
  | .encNormal _ _ regs => decide (regs.length ≤ maxRegs)
  | .encException _ _ e => e == excIllegalFunction || e == excIllegalDataValue
  | .silThresh => true
  | .silExpired => true
  | .silGate => true
  | .silMark _ => true
  | .engPoll => true
  | .engXfail _ => true
  | .engStats r => r.wellFormed
  | .engDispatch r => r.wellFormed
  | .engSend resp => resp != []
  | .engReset => true

end Sys2Proof
end

