-- ==== Sys2Proof/Decode.lean ====
section
/-! DEFINITION. From the bytes of a frame to the table row it is, total on any byte sequence, and the encoder beside it.
An 8-byte frame is a request window (format REQ8), any other is read as a response of the block by the rule of R81. -/

namespace Sys2Proof

open Sys2Proof.Machine

/-- Why a byte sequence that is not 8 bytes long is no response of the block. -/
inductive Reject where
  /-- The length is not the one its format gives it (R70, R81). -/
  | badLength
  /-- The last two bytes are not the CRC of the others (R77). -/
  | badCrc
  /-- The function byte is none of this format (R72, R73): 0x04, or bit 7 set, or 0x84 with code 0x03. -/
  | badFunction
  /-- `byte_count` is odd or above 252 (R75). -/
  | badByteCount
  /-- An exception code other than 0x01 and 0x03 (R79). -/
  | badExceptionCode
  deriving DecidableEq, Repr

/-- `DEC.DECODE` (R140, R141, R144): exactly 8 bytes, the CRC of the first six equal to the last two read big-endian. -/
def decodeRequest : List Byte → Option Request
  | [u, f, aHi, aLo, nHi, nLo, c6, c7] =>
    if crcVerify [u, f, aHi, aLo, nHi, nLo] (be16 c6 c7) then
      some { unitId := u, functionCode := f, address := be16 aHi aLo, count := be16 nHi nLo,
             raw := [u, f, aHi, aLo, nHi, nLo, c6, c7] }
    else none
  | _ => none

/-- The row of a CRC-valid Request, by the checks of R206 to R209 in the order of R240 (rows 2 to 5 of the table, R84). -/
def Request.row (unit : Byte) (r : Request) : Instr :=
  if r.unitId ≠ unit then .reqForeign r.unitId r.functionCode r.address r.count
  else if r.functionCode ≠ fnReadInput then .reqUnsupportedFunction r.unitId r.functionCode r.address r.count
  else if maxCount < r.count then .reqCountTooLarge r.unitId r.address r.count
  else .reqReadInputRegisters r.unitId r.address r.count

/-- The row of an 8-byte window, for a block whose `UNIT_ID` is `unit`: the first of the five request rows that applies (R84). -/
def decodeWindow (unit : Byte) : List Byte → Option Instr
  | [u, f, aHi, aLo, nHi, nLo, c6, c7] =>
    match decodeRequest [u, f, aHi, aLo, nHi, nLo, c6, c7] with
    | some r => some (r.row unit)
    | none => some (.reqInvalid u f (be16 aHi aLo) (be16 nHi nLo) c6 c7)
  | _ => none

/-- The response row of a frame of the block (R72, R73), by the reader's rule of R81: bit 7 of byte 1 tells RSPX from RSPN. -/
def decodeResponse : List Byte → Except Reject Instr
  | u :: f :: x :: rest =>
    if f.getLsbD 7 then
      if rest.length ≠ 2 then .error .badLength
      else if rest ≠ crcWire [u, f, x] then .error .badCrc
      else if x = excIllegalFunction then .ok (.rspExcIllegalFunction u (f.setWidth 7))
      else if x = excIllegalDataValue then
        if f = fnReadInput ||| excFlag then .ok (.rspExcIllegalDataValue u) else .error .badFunction
      else .error .badExceptionCode
    else if f ≠ fnReadInput then .error .badFunction
    else if x.toNat % 2 ≠ 0 ∨ 2 * maxRegs < x.toNat then .error .badByteCount
    else if rest.length ≠ x.toNat + 2 then .error .badLength
    else if rest.drop x.toNat ≠ crcWire (u :: f :: x :: rest.take x.toNat) then .error .badCrc
    else .ok (.rspNormal u (regsOfBytes (rest.take x.toNat)))
  | _ => .error .badLength

/-- The decoder: any byte sequence to a table row, or a rejection by name. -/
def decode (unit : Byte) (bytes : List Byte) : Except Reject Instr :=
  match decodeWindow unit bytes with
  | some i => .ok i
  | none => decodeResponse bytes

/-- The bytes of a row that has an encoding (R71 to R73). The operations have none (R82). -/
def encode : Instr → Option (List Byte)
  | .reqInvalid u f a n lo hi => some (requestBody u f a n ++ [lo, hi])
  | .reqForeign u f a n => some (requestFrame u f a n)
  | .reqUnsupportedFunction u f a n => some (requestFrame u f a n)
  | .reqCountTooLarge u a n => some (requestFrame u fnReadInput a n)
  | .reqReadInputRegisters u a n => some (requestFrame u fnReadInput a n)
  | .rspNormal u regs => some (normalFrame u fnReadInput regs)
  | .rspExcIllegalFunction u f7 => some (exceptionFrame u (f7.setWidth 8) excIllegalFunction)
  | .rspExcIllegalDataValue u => some (exceptionFrame u fnReadInput excIllegalDataValue)
  | .crcStep _ _ => none
  | .crcRaw _ => none
  | .crcCompute _ => none
  | .crcVerify _ _ => none
  | .crcTable => none
  | .crcTstep _ _ => none
  | .asmFeed _ => none
  | .asmFlush => none
  | .decDecode _ => none
  | .rvsPack _ _ => none
  | .engAssemble _ _ => none
  | .encNormal _ _ _ => none
  | .encException _ _ _ => none
  | .silThresh => none
  | .silExpired => none
  | .silGate => none
  | .silMark _ => none
  | .engPoll => none
  | .engXfail _ => none
  | .engStats _ => none
  | .engDispatch _ => none
  | .engSend _ => none
  | .engReset => none

/-- `n` bytes of the number `w`, the most significant first: byte `k` of a frame read as one number is
`W[8(n-k)-1 : 8(n-k-1)]` (R71). -/
def bytesOfNat : Nat → Nat → List Byte
  | 0, _ => []
  | n + 1, w => BitVec.ofNat 8 (w >>> (8 * n)) :: bytesOfNat n w

/-- `UNIT_ID` right after reset: the value `State.reset` gives `CFG_UNIT_ID` (assumption log 1). -/
def resetUnitId : Byte := 0

/-- The row the decoder reads from a table word: the frame's bytes are the number's, byte 0 the most significant (R71, R84),
and `UNIT_ID` is the one the block has after reset. -/
def decodeTableWord (nbits w : Nat) : Option Instr :=
  match decode resetUnitId (bytesOfNat (nbits / 8) w) with
  | .ok i => some i
  | .error _ => none

end Sys2Proof
end

