-- ==== Sys2Proof/Machine/State.lean ====
section
/-! DEFINITION. Everything the spec gives the machine: the record `S` of 10_state.md R20, the control registers of R30,
the run's parameters, the hidden state outside the block that its rules depend on (R34), and the fields the model itself
needs (each marked MODEL'S OWN and named in INVENTORY.md). All of it is plain data. -/

namespace Sys2Proof.Machine

/-- `S.fsm` (R28, R200). -/
inductive Fsm where
  | idle
  | scanning
  | dispatching
  | responding
  deriving DecidableEq, Repr

/-- The key of PacketStats: `unit:function:address:count` as a 4-tuple (R29, R83). -/
structure Signature where
  unitId : Byte
  functionCode : Byte
  address : Word
  count : Word
  deriving DecidableEq, Repr

/-- What the block puts out (R17): a call of the Register Value Source, and a write to the transport with the time it
starts and the time it ends (R210), a failed one with the number of bytes that left before the failure (U7). -/
inductive Event where
  | call (address offset : Word)
  | tx (frame : List Byte) (tStart tEnd : Nat)
  | txFailed (frame : List Byte) (gone tStart tFail : Nat)
  deriving DecidableEq, Repr

/-- What the outside world does between the block's steps: time passes (R14), bytes arrive (R34), the poller calls
`ENG.POLL` (R16), the host writes a control register (R30), power-on reset is applied (R260). -/
inductive Move where
  | elapse (ticks : Nat)
  | arrive (bytes : List Byte)
  | poll
  | writeUnitId (v : Byte)
  | writeSilence (ticks : Nat)
  | reset
  deriving DecidableEq, Repr

/-- The answers to the block's calls that are fixed in advance, the next one first (R12, R16). Where a list is empty the
answer is a free value of Config. -/
structure Oracle where
  avail : List AvailAnswer
  read : List ReadAnswer
  gate : List GateAnswer
  write : List WriteAnswer
  reading : List Long
  deriving DecidableEq, Repr

/-- The value an operation returned (R13): `invalid` and `noResponse` are the two non-values the source names. -/
inductive Result where
  | unit
  | word (v : Word)
  | words (vs : List Word)
  | bool (b : Bool)
  | ticks (n : Nat)
  | written (n : Word)
  | bytes (bs : List Byte)
  | request (r : Request)
  | requests (rs : List Request)
  | invalid
  | noResponse
  deriving DecidableEq, Repr

/-- The machine's state. -/
structure State where
  /-- `S.buf`, the RawBuffer (R21). -/
  buf : List Byte
  /-- `S.bp`, the scan cursor (R22). -/
  bp : Nat
  /-- `S.crc`, the CRC accumulator (R23). -/
  crc : Word
  /-- `S.req`, the Request latch (R24). -/
  req : Option Request
  /-- `S.regs`, the RegisterBlock (R25). -/
  regs : List Word
  /-- `S.offset` (R25). -/
  offset : Word
  /-- `S.resp`, the ResponseFrame buffer (R26). -/
  resp : List Byte
  /-- `S.deadline`, the SilenceDeadline, in ticks (R27). -/
  deadline : Nat
  /-- `S.fsm` (R28). -/
  fsm : Fsm
  /-- `S.stats`, PacketStats, in canonical form: keys rising, no count zero (R29). `STAT_MAP` shows it (R30). -/
  stats : List (Signature × Nat)
  /-- `S.total` (R29). `STAT_TOTAL` shows it (R30). -/
  total : Nat
  /-- `CFG_UNIT_ID`, which holds `UNIT_ID` (R30). -/
  cfgUnitId : Byte
  /-- `CFG_SILENCE`, which holds `SILENCE_TICKS` (R30). -/
  cfgSilence : Nat
  /-- The parameters of the run (R7, R8, R35). -/
  cfg : Config
  /-- Time (R14, R34 c). -/
  now : Nat
  /-- The transport's pending receive bytes, the oldest first (R34 a). -/
  rx : List Byte
  /-- MODEL'S OWN: the Requests the feed of the present poll has yielded and that are not yet dispatched: the local
  variable `reqs` of `ENG.POLL` (R201, R35), held because a step is shorter than a poll. -/
  pending : List Request
  /-- MODEL'S OWN: a poll has begun since reset, so the host may no longer configure the block (R263, U8). -/
  running : Bool
  /-- MODEL'S OWN: what the outside world does next between steps, in order (R16). -/
  world : List Move
  /-- MODEL'S OWN: the answers fixed in advance (R16). -/
  oracle : Oracle
  /-- MODEL'S OWN: how many free values have been drawn. -/
  draws : Nat
  /-- MODEL'S OWN: the outputs since reset, the oldest first (R17 a, b). -/
  trace : List Event
  /-- MODEL'S OWN: the value the last operation of 30_encoding.md R82 returned (R13). -/
  ret : Result
  deriving DecidableEq, Repr

/-- The reasons for which the machine stops with a fault. There are none: "the block has no fault mechanism"
(93_implementation_defined.md), and no condition is fatal (R215, R243). Nothing raises one. -/
inductive Fault where
  deriving DecidableEq, Repr

/-- The reasons for which a step has no meaning. Each stops the run, which is safe: no claim about a next state follows. -/
inductive Refusal where
  /-- Raised by an arm of `exec` whose instruction has no meaning yet. Safe. -/
  | notModelled (mnemonic : String)
  /-- Raised by `ENG.POLL` when a poll is in progress: "a poll request is accepted only in `Idle`" (U14, R201). Safe. -/
  | pollInProgress
  /-- Raised by `ENC.NORMAL` and `RSP.NORMAL` on more than 127 registers, whose byte count leaves a u8 (U16, R166). Safe. -/
  | tooManyRegisters
  /-- Raised by a step that would let the host write a control register after the first poll (U8, R263). Safe. -/
  | configurationWhileRunning
  deriving DecidableEq, Repr

/-- What a step answers. -/
abbrev Outcome := Host.Outcome State Fault Refusal

/-- No answer fixed in advance: every one is a free value. -/
def Oracle.none : Oracle where
  avail := []
  read := []
  gate := []
  write := []
  reading := []

/-- The machine right after reset, released at time 0 (R36, R261). The fields the spec gives no value are named in the
assumption log: `crc` 2, `cfgUnitId` 1, the release time 3. `cfgSilence` and `deadline` are those of a tick taken from the bit
clock, as `cfg` says (R36; log 5, log 33). -/
def State.reset : State where
  buf := []
  bp := 0
  crc := 0
  req := .none
  regs := []
  offset := 0
  resp := []
  deadline := 38
  fsm := .idle
  stats := []
  total := 0
  cfgUnitId := resetUnitId
  cfgSilence := 38
  cfg := Config.standard
  now := 0
  rx := []
  pending := []
  running := false
  world := []
  oracle := Oracle.none
  draws := 0
  trace := []
  ret := .unit

end Sys2Proof.Machine
end

