-- ==== Sys2Proof/Machine/Flags.lean ====
section
/-! DEFINITION. The six condition signals of 10_state.md R31: pure functions of state and inputs, none stored. -/

namespace Sys2Proof.Machine

/-- `crc_ok`: the CRC of a window's first six bytes against its last two, read big-endian (R31, R140). -/
def crcOk (w : List Byte) : Bool :=
  crcVerify (w.take 6) (be16 (w.getD 6 0) (w.getD 7 0))

/-- `unit_match`: the request is addressed to this block (R31, R206). -/
def unitMatch (r : Request) (s : State) : Bool :=
  r.unitId == s.cfgUnitId

/-- `fn_ok` (R31, R207). -/
def fnOk (r : Request) : Bool :=
  r.functionCode == fnReadInput

/-- `count_ok`, an unsigned comparison (R31, R208). -/
def countOk (r : Request) : Bool :=
  decide (r.count ≤ maxCount)

/-- `more`: the assembly loop goes on (R31, R155). -/
def more (count : Word) (s : State) : Bool :=
  decide (s.offset < count)

/-- `silence_expired`: equality suffices (R31, R187). -/
def silenceExpired (s : State) : Bool :=
  decide (s.deadline ≤ s.now)

end Sys2Proof.Machine
end

