-- ==== Sys2Proof/Machine/Ops.lean ====
section
/-! DEFINITION. The shared operations over the state: drawing an answer of the outside world, the transport's queue, the
scan of the receive buffer, the value-source call, the encoders' writes of TXBUF, the silence timer, the statistics, taking
an exception and returning from a request, and one whole poll. The meanings of the instructions are built from these. -/

namespace Sys2Proof.Machine

/-! ### Small updates -/

/-- The value an operation returns (R13). -/
def setResult (v : Result) (s : State) : State :=
  { s with ret := v }

/-- Bytes reach the transport's queue, at its back (R34 a, R65). -/
def receive (bs : List Byte) (s : State) : State :=
  { s with rx := s.rx ++ bs }

/-- One more output (R17). -/
def record (e : Event) (s : State) : State :=
  { s with trace := s.trace ++ [e] }

/-- `SIL.MARK(t_end)` (R189): `S.deadline <- t_end + SILENCE_TICKS`. -/
def markSilence (tEnd : Nat) (s : State) : State :=
  { s with deadline := tEnd + s.cfgSilence }

/-- `ASM.FLUSH` (R129). -/
def flush (s : State) : State :=
  { s with buf := [], bp := 0 }

/-! ### The answers of the outside world (R12, R16): the next one fixed in advance, else a free value -/

/-- The answer to `available_byte_count()`. -/
def drawAvail (s : State) : AvailAnswer × State :=
  match s.oracle.avail with
  | a :: l => (a, { s with oracle := { s.oracle with avail := l } })
  | [] => (Config.freeAvail s.draws, { s with draws := s.draws + 1 })

/-- The answer to `read`. -/
def drawRead (s : State) : ReadAnswer × State :=
  match s.oracle.read with
  | a :: l => (a, { s with oracle := { s.oracle with read := l } })
  | [] => (Config.freeRead s.draws, { s with draws := s.draws + 1 })

/-- The wait at the silence gate. -/
def drawGate (s : State) : GateAnswer × State :=
  match s.oracle.gate with
  | a :: l => (a, { s with oracle := { s.oracle with gate := l } })
  | [] => (Config.freeGate s.draws, { s with draws := s.draws + 1 })

/-- The answer to `write`. -/
def drawWrite (s : State) : WriteAnswer × State :=
  match s.oracle.write with
  | a :: l => (a, { s with oracle := { s.oracle with write := l } })
  | [] => (Config.freeWrite s.draws, { s with draws := s.draws + 1 })

/-- The reading of a known slot, a fresh draw at each call (R64, R154). -/
def drawReading (s : State) : Long × State :=
  match s.oracle.reading with
  | v :: l => (v, { s with oracle := { s.oracle with reading := l } })
  | [] => (Config.freeReading s.draws, { s with draws := s.draws + 1 })

/-! ### The transport's receive side (R201, R202) -/

/-- `TrAvail()` (R12): the length of the queue, or `none` for a failure. It has no side effect on the queue (R58). -/
def trAvail (s : State) : Option Nat × State :=
  match drawAvail s with
  | (.ok, t) => (some t.rx.length, t)
  | (.fail, t) => (none, t)

/-- `TrRead(n)` (R12, R58): at most `n` bytes, taken from the front of the queue, or `none` for a failure. -/
def trRead (n : Nat) (s : State) : Option (List Byte) × State :=
  match drawRead s with
  | (.bytes k, t) => (some (t.rx.take (min k n)), { t with rx := t.rx.drop (min k n) })
  | (.fail left, t) => (none, { t with rx := left })

/-- The head of `ENG.POLL` (R201, R202): one `TrAvail` and at most one `TrRead` of the count it reported. `none` if either
fails. -/
def readChunk (s : State) : Option (List Byte) × State :=
  match trAvail { s with running := true } with
  | (some n, t) => trRead n t
  | (none, t) => (none, t)

/-! ### The Frame Assembler's scan (R121 to R125) -/

/-- What one scan pass works on: `S.buf`, `S.bp`, `S.crc` and the Requests yielded so far. -/
structure Scan where
  buf : List Byte
  bp : Nat
  crc : Word
  out : List Request
  deriving DecidableEq, Repr

/-- What the CRC codec leaves in `S.crc` after `DEC.DECODE(w)`: the accumulator over the first six bytes, if the length
check lets the computation begin (R101, R140, R142). -/
def crcAfterDecode (w : List Byte) (crc : Word) : Word :=
  if w.length = frameLen then crcRaw (w.take 6) else crc

/-- The loop condition `S.bp + 8 <= len(S.buf)`, as the window it allows to read (R122). -/
def scanWindow (c : Scan) : Option (List Byte) :=
  memRead c.bp frameLen c.buf

/-- A valid window: the Request is yielded, the noise before it and the frame are dropped, the cursor returns to 0 (R123). -/
def scanAccept (r : Request) (w : List Byte) (c : Scan) : Scan :=
  { buf := c.buf.drop (c.bp + frameLen), bp := 0, crc := crcAfterDecode w c.crc, out := c.out ++ [r] }

/-- An invalid window: the cursor advances by one byte (R124). -/
def scanReject (w : List Byte) (c : Scan) : Scan :=
  { c with bp := c.bp + 1, crc := crcAfterDecode w c.crc }

/-- At most `k` iterations of the scan loop. -/
def scanLoop : Nat → Scan → Scan
  | 0, c => c
  | k + 1, c =>
    match scanWindow c with
    | none => c
    | some w =>
      match decodeRequest w with
      | some r => scanLoop k (scanAccept r w c)
      | none => scanLoop k (scanReject w c)

/-- The end of the pass (R125): the cursor is stepped back by one, clamped at zero, the buffer cut there, the cursor zeroed. -/
def scanEnd (c : Scan) : Scan :=
  { c with buf := c.buf.drop (c.bp - 1), bp := 0 }

/-- The scan pass of a whole feed. Each iteration brings the cursor nearer the end of the buffer, so as many iterations as
the buffer has bytes are enough (R213). -/
def scanPass (c : Scan) : Scan :=
  scanEnd (scanLoop c.buf.length c)

/-- `ASM.FEED(chunk)` (R121): the Requests yielded, in order, and the state after. -/
def feed (chunk : List Byte) (s : State) : List Request × State :=
  let c := scanPass { buf := s.buf ++ chunk, bp := 0, crc := s.crc, out := [] }
  (c.out, { s with buf := c.buf, bp := c.bp, crc := c.crc })

/-- The scan in progress as the state holds it between steps. -/
def State.scan (s : State) : Scan where
  buf := s.buf
  bp := s.bp
  crc := s.crc
  out := s.pending

/-- The state with the scan in progress replaced. -/
def State.withScan (c : Scan) (s : State) : State :=
  { s with buf := c.buf, bp := c.bp, crc := c.crc, pending := c.out }

/-! ### The Register Value Source and the assembly loop (R150 to R157) -/

/-- `RvsRead(address, offset)` (R154): the pair is handed over unchanged (R60), the call is an output (R17 b), and a sum in
`KNOWN` returns a fresh reading. -/
def rvsRead (address offset : Word) (s : State) : Option Long × State :=
  let t := record (.call address offset) s
  if address.toNat + offset.toNat ∈ t.cfg.known then
    ((some (drawReading t).1), (drawReading t).2)
  else (none, t)

/-- `RVS.PACK(address, offset, S.regs)` (R150): the number of registers appended, 1 or 2, and the state after. -/
def rvsPack (address offset : Word) (s : State) : Word × State :=
  let v := rvsRead address offset s
  (BitVec.ofNat 16 (packedRegs v.1).length, { v.2 with regs := v.2.regs ++ packedRegs v.1 })

/-- One iteration of the assembly loop (R155). -/
def assembleOnce (address : Word) (s : State) : State :=
  let p := rvsPack address s.offset s
  { p.2 with offset := s.offset + p.1 }

/-- At most `k` iterations of `while S.offset < count`. -/
def assembleLoop : Nat → Word → Word → State → State
  | 0, _, _, s => s
  | k + 1, address, count, s =>
    if more count s then assembleLoop k address count (assembleOnce address s) else s

/-- `ENG.ASSEMBLE(address, count)` (R155). Each call adds at least one register, so `count` iterations are enough (R213). -/
def assemble (address count : Word) (s : State) : State :=
  assembleLoop count.toNat address count { s with regs := [], offset := 0 }

/-! ### The Response Encoder (R165, R169) -/

/-- `ENC.NORMAL` (R165): the frame in TXBUF, the accumulator over everything before its CRC. -/
def encodeNormal (unitId functionCode : Byte) (regs : List Word) (s : State) : State :=
  { s with resp := normalFrame unitId functionCode regs, crc := crcRaw (normalBody unitId functionCode regs) }

/-- `ENC.EXCEPTION` (R169). -/
def encodeException (unitId functionCode exceptionCode : Byte) (s : State) : State :=
  { s with resp := exceptionFrame unitId functionCode exceptionCode,
           crc := crcRaw (exceptionBody unitId functionCode exceptionCode) }

/-! ### The Silence Timer (R185 to R189) -/

/-- `SILENCE_TICKS` for the configured rate (R185, R186): 38 bit times in ticks of the bit clock, or of a free-running tick,
rounded up. -/
def silenceThreshold (c : Config) : Nat :=
  match c.tickHz with
  | none => silenceBits * c.ticksPerBit
  | some f => (silenceBits * f + c.baud - 1) / c.baud

/-- `SIL.GATE` (R188): returns at some time not before the deadline, at once if that has passed; bytes that arrive meanwhile
wait in the transport (R194). -/
def silenceGate (s : State) : State :=
  let g := drawGate s
  receive g.1.arrived { g.2 with now := max s.now s.deadline + g.1.late }

/-- `ENG.SEND(resp)` (R210): gate, one write of the whole frame, mark, and whether it was written. A failed write is marked
too (R189). -/
def send (resp : List Byte) (s : State) : Bool × State :=
  let g := silenceGate s
  match drawWrite g with
  | (.ok ticks arrived, t) =>
    (true, { markSilence (g.now + ticks) (record (.tx resp g.now (g.now + ticks))
      (receive arrived { t with now := g.now + ticks })) with resp := [] })
  | (.fail ticks gone arrived, t) =>
    (false, markSilence (g.now + ticks) (record (.txFailed resp (min gone resp.length) g.now (g.now + ticks))
      (receive arrived { t with now := g.now + ticks })))

/-! ### PacketStats (R29, R205) -/

/-- The signature of a Request (R29). -/
def signatureOf (r : Request) : Signature where
  unitId := r.unitId
  functionCode := r.functionCode
  address := r.address
  count := r.count

/-- The 48 bits of a signature as a number, which orders the map's keys. -/
def Signature.key (k : Signature) : Nat :=
  (k.unitId ++ k.functionCode ++ k.address ++ k.count).toNat

/-- One more occurrence of `k`; an absent key counts as 0 (R205). The keys stay in rising order. -/
def bumpStats (k : Signature) : List (Signature × Nat) → List (Signature × Nat)
  | [] => [(k, 1)]
  | (j, n) :: l =>
    if k = j then (j, n + 1) :: l
    else if k.key < j.key then (k, 1) :: (j, n) :: l
    else (j, n) :: bumpStats k l

/-- The count of a signature; an absent key counts as 0 (R29). -/
def statsCount (k : Signature) : List (Signature × Nat) → Nat
  | [] => 0
  | (j, n) :: l => if k = j then n else statsCount k l

/-- `ENG.STATS(r)` (R205). -/
def countRequest (r : Request) (s : State) : State :=
  { s with stats := bumpStats (signatureOf r) s.stats, total := s.total + 1 }

/-! ### Requests: the latch, exceptions, the return from a request, transport failure -/

/-- `S.fsm <- Dispatching; S.req <- r` (R201). -/
def latchRequest (r : Request) (s : State) : State :=
  { s with fsm := .dispatching, req := some r }

/-- TAKING AN EXCEPTION (R231, R232, R241): nothing is saved and no mode changes. The exception response is encoded into
TXBUF and control moves from `Dispatching` to `Responding` exactly as for a normal response. -/
def raiseException (exceptionCode unitId functionCode : Byte) (s : State) : State :=
  { encodeException unitId functionCode exceptionCode s with fsm := .responding }

/-- THE RETURN from a request, whether answered, refused by an exception or ignored (R201, R211, R242): nothing needs
restoring. The next Request of the poll is taken, or the engine is `Idle`. -/
def nextRequest (s : State) : State :=
  match s.pending with
  | [] => { s with req := none, fsm := .idle }
  | r :: rs => { s with req := some r, pending := rs, fsm := .dispatching }

/-- `ENG.XFAIL` (R201, R238): the flush, and the request, its RegisterBlock, its response and the Requests not yet dispatched
are abandoned. -/
def transportFailure (s : State) : State :=
  { flush s with req := none, regs := [], offset := 0, resp := [], pending := [], fsm := .idle }

/-- The rest of a request once its response is in TXBUF (R201): `ENG.SEND`, then the return, or `ENG.XFAIL` if the write
failed. -/
def respond (resp : List Byte) (s : State) : State :=
  match send resp s with
  | (true, t) => nextRequest t
  | (false, t) => transportFailure t

/-- `ENG.DISPATCH(r)` (R206): the response, or `none` for foreign traffic, and the state after. -/
def dispatch (r : Request) (s : State) : Option (List Byte) × State :=
  if !unitMatch r s then (none, s)
  else if !fnOk r then
    let t := encodeException r.unitId r.functionCode excIllegalFunction s
    (some t.resp, t)
  else if !countOk r then
    let t := encodeException r.unitId r.functionCode excIllegalDataValue s
    (some t.resp, t)
  else
    let a := assemble r.address r.count s
    let t := encodeNormal r.unitId r.functionCode a.regs a
    (some t.resp, t)

/-! ### One whole poll (R201) -/

/-- The loop of `ENG.POLL` over the Requests of its feed, each to completion before the next (R201, R204). -/
def serveAll : List Request → State → State
  | [], s => { s with fsm := .idle }
  | r :: rs, s =>
    let a := countRequest r { latchRequest r s with pending := rs }
    match dispatch r a with
    | (none, t) => serveAll rs { t with req := none }
    | (some resp, t) =>
      match send resp { t with fsm := .responding } with
      | (true, u) => serveAll rs { u with req := none }
      | (false, u) => transportFailure u

/-- `ENG.POLL()` (R201), its precondition `S.fsm = Idle` aside. -/
def poll (s : State) : State :=
  match readChunk s with
  | (none, t) => transportFailure t
  | (some chunk, t) =>
    let f := feed chunk { t with fsm := .scanning }
    serveAll f.1 f.2

/-! ### Power-on reset and the host's side -/

/-- `ENG.RESET` (R261, R36), released at the present time. `S.crc` and `CFG_UNIT_ID` are unspecified after it: free values.
The transport's queue, the value source and time go on (R262). DESIGN CHOICE (log 33): `SILENCE_TICKS` is `38 * TICKS_PER_BIT` here
(R36) also where the tick is free-running, for which R186 has another number and the reset column none: the host's to write. -/
def powerOnReset (s : State) : State :=
  { s with
    buf := [], bp := 0, crc := Config.freeCrc s.draws, req := none, regs := [], offset := 0, resp := [],
    deadline := s.now + silenceBits * s.cfg.ticksPerBit, fsm := .idle, stats := [], total := 0,
    cfgUnitId := Config.freeUnitId (s.draws + 1), cfgSilence := silenceBits * s.cfg.ticksPerBit,
    pending := [], running := false, draws := s.draws + 2, trace := [], ret := .unit }

/-- The four control registers of R30, by the spec's own numbers. -/
inductive ControlReg where
  | cfgUnitId
  | cfgSilence
  | statTotal
  | statMap
  deriving DecidableEq, Repr

/-- R30: the number of a control register. -/
def ControlReg.number : ControlReg → Nat
  | .cfgUnitId => 0
  | .cfgSilence => 1
  | .statTotal => 2
  | .statMap => 3

/-- R30: whether the host may write it, before operation. -/
def ControlReg.hostWritable : ControlReg → Bool
  | .cfgUnitId => true
  | .cfgSilence => true
  | .statTotal => false
  | .statMap => false

/-- What a control register shows: a number, or the entries of the map. -/
inductive ControlValue where
  | number (n : Nat)
  | entries (l : List (Signature × Nat))
  deriving DecidableEq, Repr

/-- What the host reads from a control register (R30, R248). Reading changes nothing. -/
def readControl (c : ControlReg) (s : State) : ControlValue :=
  match c with
  | .cfgUnitId => .number s.cfgUnitId.toNat
  | .cfgSilence => .number s.cfgSilence
  | .statTotal => .number s.total
  | .statMap => .entries s.stats

end Sys2Proof.Machine
end

