-- ==== Sys2Proof/Machine/Assembler.lean ====
section
/-! DEFINITION. The meanings of the Frame Assembler's and the Request Decoder's rows (41_frame_assembler.md,
42_request_decoder.md). -/

namespace Sys2Proof.Machine

/-- `ASM.FEED` (R121): the Requests yielded are the value returned; `S.buf` and `S.bp` as R125 leaves them. -/
def execAsmFeed (chunk : List Byte) (s : State) : Outcome :=
  .next (setResult (.requests (feed chunk s).1) (feed chunk s).2)

/-- `ASM.FLUSH` (R129). -/
def execAsmFlush (s : State) : Outcome :=
  .next (setResult .unit (flush s))

/-- `DEC.DECODE` (R140): `invalid` is an ordinary result, and only the CRC working accumulator is written (R142). -/
def execDecDecode (window : List Byte) (s : State) : Outcome :=
  match decodeRequest window with
  | some r => .next (setResult (.request r) { s with crc := crcAfterDecode window s.crc })
  | none => .next (setResult .invalid { s with crc := crcAfterDecode window s.crc })

end Sys2Proof.Machine
end

