-- ==== Sys2Proof/Machine/Codec.lean ====
section
/-! DEFINITION. The meanings of the CRC16 Codec's rows (40_crc16.md). The codec owns `S.crc`, which `CRC.RAW` and what calls
it write (R20, R101); a single step and the table are values only (R100, R104, R105). -/

namespace Sys2Proof.Machine

/-- `CRC.STEP` (R100): a pure function of its operands. -/
def execCrcStep (acc : Word) (b : Byte) (s : State) : Outcome :=
  .next (setResult (.word (crcStep acc b)) s)

/-- `CRC.RAW` (R101): `S.crc` ends as the value returned. -/
def execCrcRaw (data : List Byte) (s : State) : Outcome :=
  .next (setResult (.word (crcRaw data)) { s with crc := crcRaw data })

/-- `CRC.COMPUTE` (R102): `S.crc` ends as `CRC.RAW(data)`; the value returned has its bytes swapped. -/
def execCrcCompute (data : List Byte) (s : State) : Outcome :=
  .next (setResult (.word (crcCompute data)) { s with crc := crcRaw data })

/-- `CRC.VERIFY` (R103). -/
def execCrcVerify (data : List Byte) (expected : Word) (s : State) : Outcome :=
  .next (setResult (.bool (crcVerify data expected)) { s with crc := crcRaw data })

/-- `CRC.TABLE` (R104): the constant of 256 entries. -/
def execCrcTable (s : State) : Outcome :=
  .next (setResult (.words crcTable) s)

/-- `CRC.TSTEP` (R105). -/
def execCrcTstep (acc : Word) (b : Byte) (s : State) : Outcome :=
  .next (setResult (.word (crcTstep acc b)) s)

end Sys2Proof.Machine
end

