-- ==== Sys2Proof/Machine/Encoder.lean ====
section
/-! DEFINITION. The meanings of the Response Encoder's rows (44_response_encoder.md). -/

namespace Sys2Proof.Machine

/-- `ENC.NORMAL` (R165). More than 127 registers are refused: `byte_count` would leave a u8 (U16, R166). -/
def execEncNormal (unitId functionCode : Byte) (regs : List Word) (s : State) : Outcome :=
  if maxEncodable < regs.length then .refused .tooManyRegisters
  else .next (setResult (.bytes (normalFrame unitId functionCode regs)) (encodeNormal unitId functionCode regs s))

/-- `ENC.EXCEPTION` (R169); the encoder serialises any code (R171). -/
def execEncException (unitId functionCode exceptionCode : Byte) (s : State) : Outcome :=
  .next (setResult (.bytes (exceptionFrame unitId functionCode exceptionCode))
    (encodeException unitId functionCode exceptionCode s))

end Sys2Proof.Machine
end

