-- ==== Sys2Proof/Machine/Engine.lean ====
section
/-! DEFINITION. The meanings of the Slave Engine's rows (46_slave_engine.md, 60_exceptions.md R238,
70_reset_and_hazards.md R261). -/

namespace Sys2Proof.Machine

/-- `ENG.POLL` (R201): one whole poll, accepted only in `Idle` (U14). -/
def execEngPoll (s : State) : Outcome :=
  if s.fsm = .idle then .next (setResult .unit (poll s)) else .refused .pollInProgress

/-- `ENG.XFAIL` (R201, R238). The reaction is the same on both sides: a failed write has been marked by `ENG.SEND` (R210). -/
def execEngXfail (_side : Side) (s : State) : Outcome :=
  .next (setResult .unit (transportFailure s))

/-- `ENG.STATS` (R205). -/
def execEngStats (r : Request) (s : State) : Outcome :=
  .next (setResult .unit (countRequest r s))

/-- `ENG.DISPATCH` (R206): the response, or no response for foreign traffic. -/
def execEngDispatch (r : Request) (s : State) : Outcome :=
  match dispatch r s with
  | (some resp, t) => .next (setResult (.bytes resp) t)
  | (none, t) => .next (setResult .noResponse t)

/-- `ENG.SEND` (R210): whether the frame was written. -/
def execEngSend (resp : List Byte) (s : State) : Outcome :=
  .next (setResult (.bool (send resp s).1) (send resp s).2)

/-- `ENG.RESET` (R261). -/
def execEngReset (s : State) : Outcome :=
  .next (powerOnReset s)

end Sys2Proof.Machine
end

