-- ==== Sys2Proof/Machine/Registers.lean ====
section
/-! DEFINITION. The meanings of the Register Value Source call and of the register assembly
(43_register_value_source.md). -/

namespace Sys2Proof.Machine

/-- `RVS.PACK` (R150): 1 or 2 registers appended to `S.regs`, and their number returned. -/
def execRvsPack (address offset : Word) (s : State) : Outcome :=
  .next (setResult (.written (rvsPack address offset s).1) (rvsPack address offset s).2)

/-- `ENG.ASSEMBLE` (R155): the RegisterBlock is the value returned. -/
def execEngAssemble (address count : Word) (s : State) : Outcome :=
  .next (setResult (.words (assemble address count s).regs) (assemble address count s))

end Sys2Proof.Machine
end

