-- ==== Sys2Proof/Machine/Requests.lean ====
section
/-! DEFINITION. The meanings of the five request rows (the *effect* column of spec/opcode_table.json; R124, R206 to R209).
A valid request runs when the engine dispatches it: it is latched and counted, then ignored, refused by an exception, or
answered. A response it prepares stands in TXBUF with the engine in `Responding`, where the response row sends it. -/

namespace Sys2Proof.Machine

/-- The part every valid request shares (R201): the latch, then the statistics, before any check (R205). -/
def acceptRequest (unitId functionCode : Byte) (address count : Word) (s : State) : State :=
  countRequest (Request.ofFields unitId functionCode address count)
    (latchRequest (Request.ofFields unitId functionCode address count) s)

/-- `REQ.INVALID` (R124, R235): the cursor advances by one byte and nothing else is signalled, counted or sent. The CRC
accumulator holds the computation over the window's first six bytes. -/
def execReqInvalid (unitId functionCode : Byte) (address count : Word) (_crcLo _crcHi : Byte) (s : State) : Outcome :=
  .next { s with bp := s.bp + 1, crc := crcRaw (requestBody unitId functionCode address count) }

/-- `REQ.FOREIGN` (R206, R236): counted, otherwise ignored; the engine goes on to the next Request. -/
def execReqForeign (unitId functionCode : Byte) (address count : Word) (s : State) : Outcome :=
  .next (nextRequest (acceptRequest unitId functionCode address count s))

/-- `REQ.UNSUPPORTED_FUNCTION` (R207, R231): counted, then exception 0x01. -/
def execReqUnsupportedFunction (unitId functionCode : Byte) (address count : Word) (s : State) : Outcome :=
  .next (raiseException excIllegalFunction unitId functionCode (acceptRequest unitId functionCode address count s))

/-- `REQ.READ_INPUT_REGISTERS.COUNT_TOO_LARGE` (R208, R232): counted, then exception 0x03. -/
def execReqCountTooLarge (unitId : Byte) (address count : Word) (s : State) : Outcome :=
  .next (raiseException excIllegalDataValue unitId fnReadInput (acceptRequest unitId fnReadInput address count s))

/-- `REQ.READ_INPUT_REGISTERS` (R209): counted, the RegisterBlock assembled, the normal response encoded. -/
def execReqReadInputRegisters (unitId : Byte) (address count : Word) (s : State) : Outcome :=
  let a := assemble address count (acceptRequest unitId fnReadInput address count s)
  .next { encodeNormal unitId fnReadInput a.regs a with fsm := .responding }

end Sys2Proof.Machine
end

