-- ==== Sys2Proof/Machine/Responses.lean ====
section
/-! DEFINITION. The meanings of the three response rows (R72, R73, R165, R169): the frame is put in TXBUF, passes the
silence gate, is written once and marked (R210, R234), and the engine returns from the request (R242). -/

namespace Sys2Proof.Machine

/-- `RSP.NORMAL` (R165). More than 127 registers are refused, as in `ENC.NORMAL` (U16). -/
def execRspNormal (unitId : Byte) (regs : List Word) (s : State) : Outcome :=
  if maxEncodable < regs.length then .refused .tooManyRegisters
  else .next (respond (normalFrame unitId fnReadInput regs) (encodeNormal unitId fnReadInput regs s))

/-- `RSP.EXC_ILLEGAL_FUNCTION` (R169, R231). -/
def execRspExcIllegalFunction (unitId : Byte) (function7 : BitVec 7) (s : State) : Outcome :=
  .next (respond (exceptionFrame unitId (function7.setWidth 8) excIllegalFunction)
    (encodeException unitId (function7.setWidth 8) excIllegalFunction s))

/-- `RSP.EXC_ILLEGAL_DATA_VALUE` (R169, R232). -/
def execRspExcIllegalDataValue (unitId : Byte) (s : State) : Outcome :=
  .next (respond (exceptionFrame unitId fnReadInput excIllegalDataValue)
    (encodeException unitId fnReadInput excIllegalDataValue s))

end Sys2Proof.Machine
end

