-- ==== Sys2Proof/Machine/Silence.lean ====
section
/-! DEFINITION. The meanings of the Silence Timer's rows (45_silence_timer.md). -/

namespace Sys2Proof.Machine

/-- `SIL.THRESH` (R185, R186): the threshold, 38 bit times, in ticks. -/
def execSilThresh (s : State) : Outcome :=
  .next (setResult (.ticks (silenceThreshold s.cfg)) s)

/-- `SIL.EXPIRED` (R187). -/
def execSilExpired (s : State) : Outcome :=
  .next (setResult (.bool (silenceExpired s)) s)

/-- `SIL.GATE` (R188). -/
def execSilGate (s : State) : Outcome :=
  .next (setResult .unit (silenceGate s))

/-- `SIL.MARK` (R189). -/
def execSilMark (tEnd : Nat) (s : State) : Outcome :=
  .next (setResult .unit (markSilence tEnd s))

end Sys2Proof.Machine
end

