-- ==== Sys2Proof/Machine/Dispatch.lean ====
section
/-! DEFINITION. What each row of the opcode table does: one arm per constructor of `Instr`. -/

namespace Sys2Proof.Machine

def exec (i : Instr) (s : State) : Host.Outcome State Fault Refusal :=
  match i with
  | .reqInvalid u f a n lo hi => Sys2Proof.Machine.execReqInvalid u f a n lo hi s
  | .reqForeign u f a n => Sys2Proof.Machine.execReqForeign u f a n s
  | .reqUnsupportedFunction u f a n => Sys2Proof.Machine.execReqUnsupportedFunction u f a n s
  | .reqCountTooLarge u a n => Sys2Proof.Machine.execReqCountTooLarge u a n s
  | .reqReadInputRegisters u a n => Sys2Proof.Machine.execReqReadInputRegisters u a n s
  | .rspNormal u regs => Sys2Proof.Machine.execRspNormal u regs s
  | .rspExcIllegalFunction u f7 => Sys2Proof.Machine.execRspExcIllegalFunction u f7 s
  | .rspExcIllegalDataValue u => Sys2Proof.Machine.execRspExcIllegalDataValue u s
  | .crcStep acc b => Sys2Proof.Machine.execCrcStep acc b s
  | .crcRaw data => Sys2Proof.Machine.execCrcRaw data s
  | .crcCompute data => Sys2Proof.Machine.execCrcCompute data s
  | .crcVerify data expected => Sys2Proof.Machine.execCrcVerify data expected s
  | .crcTable => Sys2Proof.Machine.execCrcTable s
  | .crcTstep acc b => Sys2Proof.Machine.execCrcTstep acc b s
  | .asmFeed chunk => Sys2Proof.Machine.execAsmFeed chunk s
  | .asmFlush => Sys2Proof.Machine.execAsmFlush s
  | .decDecode window => Sys2Proof.Machine.execDecDecode window s
  | .rvsPack address offset => Sys2Proof.Machine.execRvsPack address offset s
  | .engAssemble address count => Sys2Proof.Machine.execEngAssemble address count s
  | .encNormal u f regs => Sys2Proof.Machine.execEncNormal u f regs s
  | .encException u f e => Sys2Proof.Machine.execEncException u f e s
  | .silThresh => Sys2Proof.Machine.execSilThresh s
  | .silExpired => Sys2Proof.Machine.execSilExpired s
  | .silGate => Sys2Proof.Machine.execSilGate s
  | .silMark tEnd => Sys2Proof.Machine.execSilMark tEnd s
  | .engPoll => Sys2Proof.Machine.execEngPoll s
  | .engXfail side => Sys2Proof.Machine.execEngXfail side s
  | .engStats r => Sys2Proof.Machine.execEngStats r s
  | .engDispatch r => Sys2Proof.Machine.execEngDispatch r s
  | .engSend resp => Sys2Proof.Machine.execEngSend resp s
  | .engReset => Sys2Proof.Machine.execEngReset s

end Sys2Proof.Machine
end

