-- ==== Sys2Proof/Machine/Fetch.lean ====
section
/-! DEFINITION. What the machine does next. The block fetches no instructions (R63); `S.fsm` says which component is active
and `S.bp` which window is under test (R33). In `Scanning` the window at `S.bp` is decoded, in `Dispatching` the Request
latch selects a row by its function code (R78), in `Responding` the frame in TXBUF is the row to send. -/

namespace Sys2Proof.Machine

/-- What one step does: it runs a row from a state, makes a move that is no row, or stops. -/
inductive Fetched where
  | run (i : Instr) (s : State)
  | go (s : State)
  | stop (r : Refusal)
  deriving DecidableEq, Repr

/-- `Idle -> Scanning` (R211): a poll has read its chunk, which is appended, the cursor at 0 (R121). -/
def startScan (chunk : List Byte) (s : State) : State :=
  { s with buf := s.buf ++ chunk, bp := 0, pending := [], fsm := .scanning }

/-- A poll begins (R201, R202); a failed read is handled by `ENG.XFAIL`. -/
def fetchPoll (s : State) : Fetched :=
  match readChunk s with
  | (some chunk, t) => .go (startScan chunk t)
  | (none, t) => .run (.engXfail .read) t

/-- In `Idle` the next move of the outside world is taken; with none fixed in advance the poller polls (R16, R276). -/
def fetchIdle : List Move → State → Fetched
  | [], s => fetchPoll s
  | .elapse ticks :: ms, s => .go { s with world := ms, now := s.now + ticks }
  | .arrive bs :: ms, s => .go (receive bs { s with world := ms })
  | .poll :: ms, s => fetchPoll { s with world := ms }
  | .writeUnitId v :: ms, s =>
    if s.running then .stop .configurationWhileRunning else .go { s with world := ms, cfgUnitId := v }
  | .writeSilence ticks :: ms, s =>
    if s.running then .stop .configurationWhileRunning else .go { s with world := ms, cfgSilence := ticks }
  | .reset :: ms, s => .run .engReset { s with world := ms }

/-- A valid window is yielded and consumed (R123). -/
def yieldRequest (r : Request) (w : List Byte) (s : State) : State :=
  s.withScan (scanAccept r w s.scan)

/-- The end of the pass (R125), and the first Request, if any, is taken (R211). -/
def finishScan (s : State) : State :=
  nextRequest (s.withScan (scanEnd s.scan))

/-- In `Scanning`: the row of the window at the cursor. -/
def fetchWindow (s : State) : Fetched :=
  match scanWindow s.scan with
  | none => .go (finishScan s)
  | some w =>
    match decodeRequest w with
    | some r => .go (yieldRequest r w s)
    | none =>
      match decodeWindow s.cfgUnitId w with
      | some i => .run i s
      | none => .go (finishScan s)

/-- In `Dispatching`: the row of the latched Request. -/
def fetchRequest (s : State) : Fetched :=
  match s.req with
  | some r => .run (r.row s.cfgUnitId) s
  | none => .go (nextRequest s)

/-- In `Responding`: the row of the frame in TXBUF. A frame that is no response of the block cannot stand there (its three
encoders make no other); it would be written all the same (R210). -/
def fetchResponse (s : State) : Fetched :=
  match decodeResponse s.resp with
  | .ok i => .run i s
  | .error _ => .go (respond s.resp s)

/-- By the engine's state (R211). -/
def fetchByState (s : State) : Fetched :=
  match s.fsm with
  | .idle => fetchIdle s.world s
  | .scanning => fetchWindow s
  | .dispatching => fetchRequest s
  | .responding => fetchResponse s

/-- Power-on reset can be released in any state of the engine (R260); everything else waits for `Idle`. -/
def fetch (s : State) : Fetched :=
  match s.world with
  | .reset :: ms => .run .engReset { s with world := ms }
  | _ => fetchByState s

/-- The bytes of a frame placed where the engine takes its next row: a valid request in the Request latch (`Dispatching`), any
other 8 bytes as the window at the cursor (`Scanning`), a frame of another length in TXBUF (`Responding`). -/
def placeFrame (bytes : List Byte) (s : State) : State :=
  if bytes.length = frameLen then
    match decodeRequest bytes with
    | some r => { s with fsm := .dispatching, req := some r }
    | none => { s with fsm := .scanning, buf := bytes, bp := 0 }
  else { s with fsm := .responding, resp := bytes }

end Sys2Proof.Machine
end

