-- ==== Sys2Proof/Machine/Step.lean ====
section
/-! DEFINITION. One step of the machine: the row or the move that `fetch` finds. -/

namespace Sys2Proof.Machine

/-- One step. -/
def step (s : State) : Host.Outcome State Fault Refusal :=
  match fetch s with
  | .run i t => exec i t
  | .go t => .next t
  | .stop r => .refused r

/-- The frame whose bytes are those of the table word `w` (R71), placed where the very next step runs it. -/
def State.withFetchWord (s : State) (nbits w : Nat) : State :=
  placeFrame (bytesOfNat (nbits / 8) w) s

end Sys2Proof.Machine
end

