-- ==== Sys2Proof/Safety.lean ====
section
/-! DEFINITION. What a safe run of the block is, in the terms the claims use: the invariants of 10_state.md R37 (and of R21,
R25, R26, R29, R191) stretched to the states between two steps of a poll, the outputs of a run, and the two reference designs
the Frame Assembler is compared with (41_frame_assembler.md R130, R132). -/

namespace Sys2Proof.Machine

/-! ### The receive buffer -/

/-- No 8-byte window of `buf` that starts below `n` is a frame. -/
def NoFrameBelow (n : Nat) (buf : List Byte) : Prop :=
  ∀ p w, p < n → memRead p frameLen buf = some w → decodeRequest w = none

/-- No 8-byte window of `buf` is a frame (R37 I3, R131). -/
def NoFrame (buf : List Byte) : Prop :=
  ∀ p w, memRead p frameLen buf = some w → decodeRequest w = none

/-- R37 I1 to I3: outside a scan the cursor is 0 and the buffer holds at most 8 bytes and no frame; inside one, the windows
before the cursor are known not to be frames and the last of them is whole. -/
def State.BufferInv (s : State) : Prop :=
  if s.fsm = .scanning then (s.bp = 0 ∨ s.bp + 7 ≤ s.buf.length) ∧ NoFrameBelow s.bp s.buf
  else s.bp = 0 ∧ s.buf.length ≤ 8 ∧ NoFrame s.buf

/-! ### Requests, registers, response -/

/-- R24: every Request held is the one its raw bytes decode to. -/
def State.RequestInv (s : State) : Prop :=
  (∀ r ∈ s.pending, r.wellFormed = true) ∧ (∀ r, s.req = some r → r.wellFormed = true)

/-- R25, R26: at most 126 registers, as many as `S.offset` says, and at most 257 response bytes. -/
def State.LengthInv (s : State) : Prop :=
  s.regs.length ≤ 126 ∧ s.offset.toNat = s.regs.length ∧ s.resp.length ≤ 257

/-- R24, R28, R37 I4: what the latch, the queue and TXBUF hold in each state of the engine. In `Responding` TXBUF holds a
frame of one of the three response rows. -/
def State.ControlInv (s : State) : Prop :=
  match s.fsm with
  | .idle => s.req = none ∧ s.pending = [] ∧ s.resp = []
  | .scanning => s.req = none ∧ s.resp = []
  | .dispatching => s.req ≠ none ∧ s.resp = []
  | .responding => s.req ≠ none ∧ ∃ i, decodeResponse s.resp = .ok i

/-! ### PacketStats -/

/-- The canonical form of the map: keys strictly rising, no count zero (R29). -/
def StatsWf (l : List (Signature × Nat)) : Prop :=
  l.Pairwise (fun a b => a.1.key < b.1.key) ∧ ∀ e ∈ l, 0 < e.2

/-- R37 I5: the total is the sum over all keys. -/
def State.StatsInv (s : State) : Prop :=
  StatsWf s.stats ∧ s.total = (s.stats.map Prod.snd).sum

/-! ### Silence -/

/-- The start and the end of a transmission, a failed one included. -/
def Event.span : Event → Option (Nat × Nat)
  | .call _ _ => none
  | .tx _ a b => some (a, b)
  | .txFailed _ _ a b => some (a, b)

/-- The transmissions of a run, in order. -/
def spans (t : List Event) : List (Nat × Nat) :=
  t.filterMap Event.span

/-- R191 made inductive: each transmission begins at least `SILENCE_TICKS` after every earlier one has ended, and the deadline
keeps the next one as far away. The host configures only a block that has not begun to poll (R263). -/
def State.SilenceInv (s : State) : Prop :=
  (spans s.trace).Pairwise (fun a b => a.2 + s.cfgSilence ≤ b.1) ∧
  (∀ p ∈ spans s.trace, p.1 ≤ p.2 ∧ p.2 + s.cfgSilence ≤ s.deadline) ∧
  (s.running = false → s.fsm = .idle ∧ s.trace = [])

/-- The host asks for no configuration change that the block would have to refuse (U8). -/
def State.NoLateConfiguration (s : State) : Prop :=
  s.running = true → ∀ v ms, s.world ≠ .writeUnitId v :: ms ∧ ∀ n, s.world ≠ .writeSilence n :: ms

/-! ### Reference designs for the Frame Assembler -/

/-- The greedy scan of R130 from position `p`, in at most `k` tests. -/
def greedyFrom : Nat → Nat → List Byte → List Request
  | 0, _, _ => []
  | k + 1, p, x =>
    match memRead p frameLen x with
    | none => []
    | some w =>
      match decodeRequest w with
      | some r => r :: greedyFrom k (p + frameLen) x
      | none => greedyFrom k (p + 1) x

/-- The greedy scan of a whole stream (R130). -/
def greedyScan (x : List Byte) : List Request :=
  greedyFrom x.length 0 x

/-- Several feeds in a row: all Requests yielded, in order, and the state after. -/
def feedAll : List (List Byte) → State → List Request × State
  | [], s => ([], s)
  | c :: cs, s =>
    let a := feed c s
    let b := feedAll cs a.2
    (a.1 ++ b.1, b.2)

/-- The 8-byte shift window of R132: one received byte. -/
def shiftByte (b : Byte) (win : List Byte) : List Request × List Byte :=
  let w := if win.length = frameLen then win.drop 1 ++ [b] else win ++ [b]
  if w.length = frameLen then
    match decodeRequest w with
    | some r => ([r], [])
    | none => ([], w)
  else ([], w)

/-- The shift window over a chunk, byte by byte (R132). -/
def shiftBytes : List Byte → List Byte → List Request × List Byte
  | [], win => ([], win)
  | b :: bs, win =>
    let a := shiftByte b win
    let c := shiftBytes bs a.2
    (a.1 ++ c.1, c.2)

/-! ### A run -/

/-- `k` steps, ending at the first stop. -/
def stepN (k : Nat) (s : State) : Host.Outcome State Fault Refusal :=
  Sys2Proof.core.run k s

end Sys2Proof.Machine
end

