-- ==== Sys2Proof/Certificates/Slice0/Obligations.lean ====
section
/-! DEFINITION. The statements for the provers, from the numbered rules of the spec, family by family. -/

open Sys2Proof Sys2Proof.Machine

/-! ### The CRC16 Codec (40_crc16.md) -/

/-- R100: the byte is XOR-ed, zero-extended, into the accumulator, then eight times the bit loop; nothing else changes. The two
corner cases and the worked example of the rule. -/
def Obligations.CrcStepIsEightIterationsOfTheBitLoop : Prop :=
  (∀ (acc : Word) (b : Byte) (s : State), exec (.crcStep acc b) s = .next { s with
    ret := .word ((fun a : Word => if a.getLsbD 0 then (a >>> 1) ^^^ 0xA001 else a >>> 1)^[8] (acc ^^^ b.setWidth 16)) }) ∧
  crcStep 0x0000 0x00 = 0x0000 ∧
  (∀ (acc acc' : Word) (b b' : Byte), hi8 acc = hi8 acc' → lo8 acc ^^^ b = lo8 acc' ^^^ b' → crcStep acc b = crcStep acc' b') ∧
  crcStep 0xFFFF 0x02 = 0x813E

/-- R101: the left fold of `CRC.STEP` from 0xFFFF, first byte first, left in `S.crc` and returned; the worked example. -/
def Obligations.CrcRawFoldsTheBytesFirstToLast : Prop :=
  (∀ (data : List Byte) (s : State), exec (.crcRaw data) s = .next { s with crc := crcRaw data, ret := .word (crcRaw data) }) ∧
  crcRaw [] = 0xFFFF ∧
  (∀ (data : List Byte) (b : Byte), crcRaw (data ++ [b]) = crcStep (crcRaw data) b) ∧
  crcRaw [0x02, 0x04, 0x00, 0x00, 0x00, 0x12] = 0x3470

/-- R102: the accumulator with its bytes exchanged; serialised big-endian it gives the accumulator's low byte first; exchanging
twice gives the accumulator back; the empty sequence and the worked example. -/
def Obligations.CrcComputeExchangesTheBytes : Prop :=
  (∀ (data : List Byte) (s : State), exec (.crcCompute data) s =
    .next { s with crc := crcRaw data, ret := .word (lo8 (crcRaw data) ++ hi8 (crcRaw data)) }) ∧
  (∀ data : List Byte, bytesBe16 (crcCompute data) = [lo8 (crcRaw data), hi8 (crcRaw data)] ∧
    swapBytes (crcCompute data) = crcRaw data) ∧
  crcCompute [] = 0xFFFF ∧ crcCompute [0x02, 0x04, 0x00, 0x00, 0x00, 0x12] = 0x7034

/-- R103: `verify` is the comparison with `compute`, in the on-wire convention; the corner case and the worked example. That it is
this comparison is the spec's own inference ("the evident reading"; N6 of 91_not_in_source.md). -/
def Obligations.CrcVerifyComparesWithCompute : Prop :=
  (∀ (data : List Byte) (expected : Word) (s : State), exec (.crcVerify data expected) s =
    .next { s with crc := crcRaw data, ret := .bool (decide (crcCompute data = expected)) }) ∧
  crcVerify [] 0xFFFF = true ∧
  crcVerify [0x02, 0x04, 0x00, 0x00, 0x00, 0x12] 0x7034 = true ∧
  crcVerify [0x02, 0x04, 0x00, 0x00, 0x00, 0x12] 0x3470 = false

/-- R104: the table is the constant of 256 entries, each the bit loop run eight times on its zero-extended index; the spot
checks. -/
def Obligations.CrcTableIsTheBitLoopOnEveryIndex : Prop :=
  ∃ table : List Word, (∀ s : State, exec .crcTable s = .next { s with ret := .words table }) ∧ table.length = 256 ∧
    (∀ b : Byte, table[b.toNat]? =
      some ((fun a : Word => if a.getLsbD 0 then (a >>> 1) ^^^ 0xA001 else a >>> 1)^[8] (b.setWidth 16))) ∧
    table[0x00]? = some 0x0000 ∧ table[0x01]? = some 0xC0C1 ∧ table[0x80]? = some 0xA001 ∧ table[0xFD]? = some 0x81C1 ∧
    table[0xFF]? = some 0x4040

/-- R105, R106: the table step is the formula of R105 and equals the bit loop for every accumulator and byte; so `CRC.RAW`,
`CRC.COMPUTE` and `CRC.VERIFY` are the same whichever step folds the bytes. -/
def Obligations.TableStepAndBitLoopAreBitIdentical : Prop :=
  (∀ (acc : Word) (b : Byte) (s : State), exec (.crcTstep acc b) s =
    .next { s with ret := .word ((acc >>> 8) ^^^ crcTable.getD (lo8 acc ^^^ b).toNat 0) }) ∧
  (∀ (acc : Word) (b : Byte) (s : State), exec (.crcTstep acc b) s = exec (.crcStep acc b) s) ∧
  (∀ data : List Byte, data.foldl crcTstep 0xFFFF = crcRaw data ∧
    swapBytes (data.foldl crcTstep 0xFFFF) = crcCompute data ∧
    ∀ expected : Word, (swapBytes (data.foldl crcTstep 0xFFFF) == expected) = crcVerify data expected)

/-- R107 b, R140, R31: a byte sequence followed by its own CRC bytes has residue 0, and a window is a frame exactly if it is 8
bytes long and its `crc_ok` holds, which is the same as residue 0. -/
def Obligations.FramesAreExactlyTheWindowsOfZeroResidue : Prop :=
  (∀ data : List Byte, crcRaw (data ++ [lo8 (crcRaw data), hi8 (crcRaw data)]) = 0) ∧
  (∀ w : List Byte, decodeRequest w ≠ none ↔ w.length = 8 ∧ crcOk w = true) ∧
  (∀ w : List Byte, decodeRequest w ≠ none ↔ w.length = 8 ∧ crcRaw w = 0)

/-! ### The Request Decoder (42_request_decoder.md) -/

/-- R140, R141, R142, R144: any length but 8 is `invalid`; 8 bytes decode exactly if the CRC of the first six matches the last
two read big-endian, to the big-endian fields and the raw bytes; only the CRC working accumulator is written. -/
def Obligations.DecodeExtractsTheFieldsOfAValidWindow : Prop :=
  (∀ (w : List Byte) (s : State), w.length ≠ 8 → exec (.decDecode w) s = .next { s with ret := .invalid }) ∧
  (∀ (u f aHi aLo nHi nLo c6 c7 : Byte) (s : State),
    (crcCompute [u, f, aHi, aLo, nHi, nLo] = c6 ++ c7 →
      exec (.decDecode [u, f, aHi, aLo, nHi, nLo, c6, c7]) s = .next { s with
        crc := crcRaw [u, f, aHi, aLo, nHi, nLo],
        ret := .request { unitId := u, functionCode := f, address := aHi ++ aLo, count := nHi ++ nLo,
                          raw := [u, f, aHi, aLo, nHi, nLo, c6, c7] } }) ∧
    (crcCompute [u, f, aHi, aLo, nHi, nLo] ≠ c6 ++ c7 →
      exec (.decDecode [u, f, aHi, aLo, nHi, nLo, c6, c7]) s = .next { s with
        crc := crcRaw [u, f, aHi, aLo, nHi, nLo], ret := .invalid }))

/-! ### The Frame Assembler (41_frame_assembler.md) -/

/-- R124: the row of a window whose CRC does not match moves the cursor on by one byte and yields, counts and sends nothing;
in a scan, the window at the cursor that is no frame does exactly this, in a step of its own (the step's grain is the model's
choice, log 6). -/
def Obligations.InvalidWindowAdvancesTheCursorByOneByte : Prop :=
  (∀ (u f : Byte) (a n : Word) (lo hi : Byte) (s : State), exec (.reqInvalid u f a n lo hi) s =
    .next { s with bp := s.bp + 1, crc := crcRaw [u, f, hi8 a, lo8 a, hi8 n, lo8 n] }) ∧
  (∀ (s : State) (w : List Byte), (∀ ms, s.world ≠ .reset :: ms) → s.fsm = .scanning →
    memRead s.bp 8 s.buf = some w → decodeRequest w = none →
    step s = .next { s with bp := s.bp + 1, crc := crcRaw (w.take 6) })

/-- R123: a valid window is yielded, the noise before it and its 8 bytes leave the buffer, and the cursor returns to 0, whatever
the unit, the function, the address and the count are (in a step of its own: the model's choice, log 6). -/
def Obligations.ValidWindowIsYieldedAndCutFromTheBuffer : Prop :=
  ∀ (s : State) (w : List Byte) (r : Request), (∀ ms, s.world ≠ .reset :: ms) → s.fsm = .scanning →
    memRead s.bp 8 s.buf = some w → decodeRequest w = some r →
    step s = .next { s with buf := s.buf.drop (s.bp + 8), bp := 0, crc := crcRaw (w.take 6), pending := s.pending ++ [r] }

/-- R125, R211: with no whole window left at the cursor the buffer is cut at the cursor stepped back by one and clamped at
zero, the cursor is 0, and the first Request yielded is taken, or the engine is `Idle` if there is none (in one step: the
model's choice, log 6). -/
def Obligations.EndOfPassStepsBackAndRetainsTheTail : Prop :=
  ∀ s : State, (∀ ms, s.world ≠ .reset :: ms) → s.fsm = .scanning → s.buf.length < s.bp + 8 →
    (s.pending = [] → step s = .next { s with buf := s.buf.drop (s.bp - 1), bp := 0, req := none, fsm := .idle }) ∧
    (∀ r rs, s.pending = r :: rs → step s = .next { s with
      buf := s.buf.drop (s.bp - 1), bp := 0, req := some r, pending := rs, fsm := .dispatching })

/-- R129: the flush empties the buffer, zeroes the cursor and changes nothing else; it is performed when the transport fails; a
partly received frame is lost, as in the rule's example. -/
def Obligations.FlushEmptiesTheReceiveBuffer : Prop :=
  (∀ s : State, exec .asmFlush s = .next { s with buf := [], bp := 0, ret := .unit }) ∧
  (∀ (side : Side) (s : State), ∃ t, exec (.engXfail side) s = .next t ∧ t.buf = [] ∧ t.bp = 0) ∧
  (∀ s : State, s.buf = [0x02, 0x04, 0x00, 0x00, 0x00] →
    (feed [0x02, 0x71, 0xF8, 0x02, 0x04, 0x00, 0x0C, 0x00, 0x02, 0xB1, 0xFB] (flush s)).1
      = [Request.ofFields 2 4 12 2] ∧
    (feed [0x02, 0x71, 0xF8, 0x02, 0x04, 0x00, 0x0C, 0x00, 0x02, 0xB1, 0xFB] s).1
      = [Request.ofFields 2 4 0 2, Request.ofFields 2 4 12 2])

/-- R121, R131, R127: a feed always completes, writes the buffer, the cursor and the CRC accumulator only, and leaves at most 8
bytes in which no window is a frame; what it yields are well-formed Requests. -/
def Obligations.FeedLeavesAtMostEightBytesAndNoFrame : Prop :=
  ∀ (chunk : List Byte) (s : State), ∃ buf crc rs, exec (.asmFeed chunk) s =
      .next { s with buf := buf, bp := 0, crc := crc, ret := .requests rs } ∧
    buf.length ≤ 8 ∧ NoFrame buf ∧ (∀ r ∈ rs, r.wellFormed = true) ∧ 8 * rs.length + buf.length ≤ s.buf.length + chunk.length

/-- R130: however the stream since the last flush is cut into chunks, the feeds yield the greedy scan of the whole stream. -/
def Obligations.FeedingIsIndependentOfTheChunking : Prop :=
  (∀ (chunk : List Byte) (s : State), exec (.asmFeed chunk) s =
    .next { (feed chunk s).2 with ret := .requests (feed chunk s).1 }) ∧
  (∀ (chunks : List (List Byte)) (s : State), s.buf = [] → (feedAll chunks s).1 = greedyScan chunks.flatten)

/-- R132: the 8-byte shift window, fed the same bytes one at a time, yields the same Requests and holds the same bytes as the
receive buffer after the feed. -/
def Obligations.ShiftWindowIsEquivalentToTheFrameAssembler : Prop :=
  ∀ (chunk : List Byte) (s : State), s.buf.length ≤ 8 → NoFrame s.buf →
    shiftBytes chunk s.buf = ((feed chunk s).1, (feed chunk s).2.buf)

/-- R135: between feeds, an empty feed yields nothing and leaves the buffer and the cursor as they are. -/
def Obligations.FeedingNothingChangesNeitherBufferNorCursor : Prop :=
  ∀ s : State, s.bp = 0 → s.buf.length ≤ 8 → NoFrame s.buf →
    ∃ crc, exec (.asmFeed []) s = .next { s with crc := crc, ret := .requests [] }

/-- R128: two valid frames in one feed into an empty buffer are both decoded, in order, and one feed yields at most one Request
for every 8 bytes it has. -/
def Obligations.TwoFramesInOneFeedAreBothDecoded : Prop :=
  (∀ (u f u' f' : Byte) (a n a' n' : Word) (s : State), s.buf = [] →
    ∃ crc, exec (.asmFeed (requestFrame u f a n ++ requestFrame u' f' a' n')) s = .next { s with
      bp := 0, crc := crc, ret := .requests [Request.ofFields u f a n, Request.ofFields u' f' a' n'] }) ∧
  (∀ (chunk : List Byte) (s : State), (feed chunk s).1.length ≤ (s.buf.length + chunk.length) / 8)

/-- R133, and for garbage of any length: after garbage in which no frame begins, a frame is recovered, alone and whole; and the
rule's counterexample to the property without that proviso. -/
def Obligations.FrameAfterGarbageIsRecoveredUnderTheProviso : Prop :=
  (∀ (g : List Byte) (u f : Byte) (a n : Word) (s : State), s.buf = [] →
    NoFrameBelow g.length (g ++ requestFrame u f a n) →
    (feed (g ++ requestFrame u f a n) s).1 = [Request.ofFields u f a n] ∧ (feed (g ++ requestFrame u f a n) s).2.buf = []) ∧
  (∀ s : State, s.buf = [] →
    (feed [0, 0, 0, 0, 0, 0, 0, 0x1B, 0x04, 0x00, 0x00, 0x00, 0x02, 0x73, 0xF1] s).1 = [Request.ofFields 0 0 0 0] ∧
    (feed [0, 0, 0, 0, 0, 0, 0, 0x1B, 0x04, 0x00, 0x00, 0x00, 0x02, 0x73, 0xF1] s).2.buf
      = [0x04, 0x00, 0x00, 0x00, 0x02, 0x73, 0xF1] ∧
    decodeRequest [0x1B, 0x04, 0x00, 0x00, 0x00, 0x02, 0x73, 0xF1] = some (Request.ofFields 0x1B 4 0 2))

/-! ### The Register Value Source and the assembly (43_register_value_source.md) -/

/-- R151, R152, R153: a recognised sum appends the reading's two halves, the more significant first, and returns 2 (two zero
registers if the value is unavailable); any other appends one zero register and returns 1. The call is recorded with the pair
unchanged (R60), and nothing else changes but the source of readings. -/
def Obligations.ValueSourceCallAppendsOneOrTwoRegisters : Prop :=
  ∀ (address offset : Word) (s : State),
    (address.toNat + offset.toNat ∈ s.cfg.known → ∃ (v : Long) (oracle : Oracle) (draws : Nat),
      exec (.rvsPack address offset) s = .next { s with
      regs := s.regs ++ [v.extractLsb' 16 16, v.extractLsb' 0 16], oracle := oracle, draws := draws,
      trace := s.trace ++ [.call address offset], ret := .written 2 }) ∧
    (∀ (v : Long) (vs : List Long), address.toNat + offset.toNat ∈ s.cfg.known → s.oracle.reading = v :: vs →
      exec (.rvsPack address offset) s = .next { s with
        regs := s.regs ++ [v.extractLsb' 16 16, v.extractLsb' 0 16], oracle := { s.oracle with reading := vs },
        trace := s.trace ++ [.call address offset], ret := .written 2 }) ∧
    (∀ (vs : List Long), address.toNat + offset.toNat ∈ s.cfg.known → s.oracle.reading = 0 :: vs →
      exec (.rvsPack address offset) s = .next { s with
        regs := s.regs ++ [0, 0], oracle := { s.oracle with reading := vs },
        trace := s.trace ++ [.call address offset], ret := .written 2 }) ∧
    (address.toNat + offset.toNat ∉ s.cfg.known → exec (.rvsPack address offset) s = .next { s with
      regs := s.regs ++ [0], trace := s.trace ++ [.call address offset], ret := .written 1 })

/-- R155, R156, R157: for an accepted count the assembly completes with `count` or `count + 1` registers, `S.offset` their
number, having written nothing but the RegisterBlock, the offset, the calls and the source of readings. With a count of 0 no call
is made and the block is empty, and such a request is answered by the 5-byte normal response. That the request row's step ends in
`Responding` with the response in TXBUF is the model's choice (log 6, log 8). -/
def Obligations.AssemblyEndsAtTheCountOrOneRegisterPastIt : Prop :=
  (∀ (address count : Word) (s : State), count ≤ 125 →
    ∃ (regs : List Word) (off : Word) (oracle : Oracle) (draws : Nat) (calls : List Event),
      exec (.engAssemble address count) s = .next { s with
        regs := regs, offset := off, oracle := oracle, draws := draws, trace := s.trace ++ calls, ret := .words regs } ∧
      off.toNat = regs.length ∧ count.toNat ≤ regs.length ∧ regs.length ≤ count.toNat + 1 ∧ spans calls = []) ∧
  (∀ (address : Word) (s : State), exec (.engAssemble address 0) s =
    .next { s with regs := [], offset := 0, ret := .words [] }) ∧
  (∀ (u : Byte) (address : Word) (s : State), ∃ t, exec (.reqReadInputRegisters u address 0) s = .next t ∧
    t.resp = [u, 0x04, 0x00, lo8 (crcRaw [u, 0x04, 0x00]), hi8 (crcRaw [u, 0x04, 0x00])] ∧ t.trace = s.trace ∧
    t.regs = [] ∧ t.fsm = .responding)

/-- R155, R158, R61 c: the block is what the calls returned, in order; call `i` is made at the offset where its registers go,
below the count, and is a reading exactly if the source recognises that address. The loop ends at the count or one register past
it, and `S.offset` is the number of registers. So every slot keeps its distance from the start address. -/
def Obligations.EveryCallIsMadeAtTheRegisterItFills : Prop :=
  ∀ (address count : Word) (s : State), count ≤ 125 → ∃ (t : State) (vs : List (Option Long)),
    exec (.engAssemble address count) s = .next t ∧
    t.regs = (vs.map packedRegs).flatten ∧ t.ret = .words t.regs ∧
    t.offset.toNat = t.regs.length ∧ count.toNat ≤ t.regs.length ∧ t.regs.length ≤ count.toNat + 1 ∧
    t.trace = s.trace ++ (List.range vs.length).map (fun i =>
      Event.call address (BitVec.ofNat 16 ((vs.take i).map packedRegs).flatten.length)) ∧
    ∀ i, i < vs.length → ((vs.take i).map packedRegs).flatten.length < count.toNat ∧
      (vs[i]? = some none ↔ address.toNat + ((vs.take i).map packedRegs).flatten.length ∉ s.cfg.known)

/-! ### The Response Encoder (44_response_encoder.md) -/

/-- R165, R166, R167, R168, R173: header, byte count twice the number of registers, each register high byte first in block
order, then the CRC of everything before it, low byte of the accumulator first; `5 + 2 * N` bytes. Only TXBUF and the
accumulator are written. -/
def Obligations.NormalResponseCarriesTheRegistersAndTheirCrc : Prop :=
  ∀ (u f : Byte) (regs : List Word) (s : State), regs.length ≤ 126 → ∃ body : List Byte,
    body = [u, f, BitVec.ofNat 8 (2 * regs.length)] ++ regs.flatMap (fun v => [hi8 v, lo8 v]) ∧
    exec (.encNormal u f regs) s = .next { s with
      resp := body ++ [lo8 (crcRaw body), hi8 (crcRaw body)], crc := crcRaw body,
      ret := .bytes (body ++ [lo8 (crcRaw body), hi8 (crcRaw body)]) } ∧
    (body ++ [lo8 (crcRaw body), hi8 (crcRaw body)]).length = 5 + 2 * regs.length ∧
    (BitVec.ofNat 8 (2 * regs.length)).toNat = 2 * regs.length ∧
    ∀ i v, regs[i]? = some v → body[3 + 2 * i]? = some (hi8 v) ∧ body[4 + 2 * i]? = some (lo8 v)

/-- U16, R166: more than 127 registers are refused by name, by the operation and by the response row; 127 are not. U14: a poll is
refused by name while one is in progress. These stops are the model's choice (log 19, log 20). -/
def Obligations.OversizedBlocksAndNestedPollsAreRefused : Prop :=
  (∀ (u f : Byte) (regs : List Word) (s : State), 127 < regs.length →
    exec (.encNormal u f regs) s = .refused .tooManyRegisters ∧ exec (.rspNormal u regs) s = .refused .tooManyRegisters) ∧
  (∀ (u f : Byte) (regs : List Word) (s : State), regs.length ≤ 127 →
    (∃ t, exec (.encNormal u f regs) s = .next t) ∧ ∃ t, exec (.rspNormal u regs) s = .next t) ∧
  (∀ s : State, s.fsm ≠ .idle → exec .engPoll s = .refused .pollInProgress)

/-- R169: unit, the request's function code with bit 7 set, exception code, CRC. Only TXBUF and the accumulator are written. The
rule's two examples. -/
def Obligations.ExceptionResponseSetsBitSevenOfTheFunction : Prop :=
  ∀ (u f e : Byte) (s : State),
    exec (.encException u f e) s = .next { s with
      resp := [u, f ||| 0x80, e, lo8 (crcRaw [u, f ||| 0x80, e]), hi8 (crcRaw [u, f ||| 0x80, e])],
      crc := crcRaw [u, f ||| 0x80, e],
      ret := .bytes [u, f ||| 0x80, e, lo8 (crcRaw [u, f ||| 0x80, e]), hi8 (crcRaw [u, f ||| 0x80, e])] } ∧
    exceptionFrame 0x02 0x04 0x03 = [0x02, 0x84, 0x03, 0xF3, 0x01] ∧
    exceptionFrame 0x02 0x03 0x01 = [0x02, 0x83, 0x01, 0x70, 0xF0]

/-- R174: every response either operation produces has CRC residue 0. R76, R170, R81: the function byte of an exception has bit 7
set and bits 6..0 the request's, and a function code that has bit 7 set already is unchanged. -/
def Obligations.EveryResponseHasZeroResidueAndExceptionsSetBitSeven : Prop :=
  (∀ (u f : Byte) (regs : List Word) (s t : State), exec (.encNormal u f regs) s = .next t → crcRaw t.resp = 0) ∧
  (∀ (u f e : Byte) (s t : State), exec (.encException u f e) s = .next t → crcRaw t.resp = 0 ∧
    t.resp[1]? = some (f ||| 0x80) ∧ (f ||| 0x80).getLsbD 7 = true ∧ (f ||| 0x80).setWidth 7 = f.setWidth 7 ∧
    (0x80 ≤ f → f ||| 0x80 = f))

/-! ### The Silence Timer (45_silence_timer.md) -/

/-- R185, R186: 38 bit times in ticks of the bit clock; with a free-running tick the least number of ticks that lasts at least
38 bit times. -/
def Obligations.ThresholdIsThirtyEightBitTimesRoundedUp : Prop :=
  ∀ s : State, ∃ n, exec .silThresh s = .next { s with ret := .ticks n } ∧
    (s.cfg.tickHz = none → n = 38 * s.cfg.ticksPerBit) ∧
    (∀ f, s.cfg.tickHz = some f → 0 < s.cfg.baud → 38 * f ≤ n * s.cfg.baud ∧ n * s.cfg.baud < 38 * f + s.cfg.baud)

/-- R189, R187: the mark moves the deadline to the end of the transmission plus `SILENCE_TICKS`; the deadline has passed exactly
if the time is not before it, equality included. Nothing else changes. The rules' examples: 510 gives 548, and 547 is too early
where 548 is not. -/
def Obligations.MarkMovesTheDeadlineAndExpiredComparesWithIt : Prop :=
  (∀ (tEnd : Nat) (s : State), exec (.silMark tEnd) s = .next { s with deadline := tEnd + s.cfgSilence, ret := .unit }) ∧
  (∀ s : State, exec .silExpired s = .next { s with ret := .bool (decide (s.now ≥ s.deadline)) }) ∧
  (∀ s : State, s.cfgSilence = 38 → (markSilence 510 s).deadline = 548 ∧
    silenceExpired { markSilence 510 s with now := 547 } = false ∧
    silenceExpired { markSilence 510 s with now := 548 } = true)

/-- R188: the gate returns at some time not before the deadline nor the call, and at the time fixed in advance if one is; only
time passes and bytes reach the transport. Every later time can be the one. -/
def Obligations.GateReturnsAtAnyTimeNotBeforeTheDeadline : Prop :=
  (∀ s : State, ∃ t0 arrived oracle draws, max s.now s.deadline ≤ t0 ∧ exec .silGate s = .next { s with
    now := t0, rx := s.rx ++ arrived, oracle := oracle, draws := draws, ret := .unit }) ∧
  (∀ (s : State) (t0 : Nat) (arrived : List Byte) (gs : List GateAnswer), max s.now s.deadline ≤ t0 →
    s.oracle.gate = ⟨t0 - max s.now s.deadline, arrived⟩ :: gs →
    exec .silGate s = .next { s with
      now := t0, rx := s.rx ++ arrived, oracle := { s.oracle with gate := gs }, ret := .unit })

/-! ### The Slave Engine's operations (46_slave_engine.md) -/

/-- R210, R189, R190: one write of the whole frame, which starts at a time the gate allows and is marked at its end whether it
succeeded or failed; on success TXBUF is emptied. Nothing else changes but time and the transport. Second clause: the exact times
and the exact bytes a failed write sent, where the outside world's answers are fixed in advance. -/
def Obligations.SendGatesWritesOnceAndMarks : Prop :=
  (∀ (resp : List Byte) (s : State), ∃ (t0 t1 : Nat) (arrived : List Byte) (oracle : Oracle) (draws : Nat),
    max s.now s.deadline ≤ t0 ∧ t0 ≤ t1 ∧
    (exec (.engSend resp) s = .next { s with
        now := t1, rx := s.rx ++ arrived, oracle := oracle, draws := draws, resp := [], deadline := t1 + s.cfgSilence,
        trace := s.trace ++ [.tx resp t0 t1], ret := .bool true } ∨
     ∃ gone, gone ≤ resp.length ∧ exec (.engSend resp) s = .next { s with
        now := t1, rx := s.rx ++ arrived, oracle := oracle, draws := draws, deadline := t1 + s.cfgSilence,
        trace := s.trace ++ [.txFailed resp gone t0 t1], ret := .bool false })) ∧
  (∀ (resp : List Byte) (s : State) (g : GateAnswer) (gs : List GateAnswer) (ws : List WriteAnswer) (ticks gone : Nat)
    (arrived : List Byte) (t0 t1 : Nat), s.oracle.gate = g :: gs →
    t0 = max s.now s.deadline + g.late → t1 = t0 + ticks →
    (s.oracle.write = .ok ticks arrived :: ws → exec (.engSend resp) s = .next { s with
      now := t1, rx := s.rx ++ g.arrived ++ arrived, oracle := { s.oracle with gate := gs, write := ws }, resp := [],
      deadline := t1 + s.cfgSilence, trace := s.trace ++ [.tx resp t0 t1], ret := .bool true }) ∧
    (s.oracle.write = .fail ticks gone arrived :: ws → exec (.engSend resp) s = .next { s with
      now := t1, rx := s.rx ++ g.arrived ++ arrived, oracle := { s.oracle with gate := gs, write := ws },
      deadline := t1 + s.cfgSilence, trace := s.trace ++ [.txFailed resp (min gone resp.length) t0 t1],
      ret := .bool false }))

/-- R205: the signature's count grows by one from what it was, an absent one counting as 0, no other count changes, and the
total grows by one. Nothing else changes. -/
def Obligations.StatisticsCountEveryRequestOnce : Prop :=
  ∀ (r : Request) (s : State), StatsWf s.stats → ∃ m, exec (.engStats r) s = .next { s with
      stats := m, total := s.total + 1, ret := .unit } ∧ StatsWf m ∧
    ∀ k : Signature, statsCount k m = statsCount k s.stats +
      if k = ⟨r.unitId, r.functionCode, r.address, r.count⟩ then 1 else 0

/-- R206, R207, R208, R209, R240: the unit is tested first, then the function, then the count; a foreign request changes nothing
and has no response; the two exceptions write TXBUF and the accumulator only; otherwise the block is what `ENG.ASSEMBLE` builds
and the response the normal response that carries it. -/
def Obligations.DispatchTestsUnitThenFunctionThenCount : Prop :=
  ∀ (r : Request) (s : State),
    (r.unitId ≠ s.cfgUnitId → exec (.engDispatch r) s = .next { s with ret := .noResponse }) ∧
    (r.unitId = s.cfgUnitId → r.functionCode ≠ 4 → exec (.engDispatch r) s = .next { s with
      resp := exceptionFrame r.unitId r.functionCode 0x01, crc := crcRaw [r.unitId, r.functionCode ||| 0x80, 0x01],
      ret := .bytes (exceptionFrame r.unitId r.functionCode 0x01) }) ∧
    (r.unitId = s.cfgUnitId → r.functionCode = 4 → 125 < r.count → exec (.engDispatch r) s = .next { s with
      resp := exceptionFrame r.unitId 0x04 0x03, crc := crcRaw [r.unitId, 0x84, 0x03],
      ret := .bytes (exceptionFrame r.unitId 0x04 0x03) }) ∧
    (r.unitId = s.cfgUnitId → r.functionCode = 4 → r.count ≤ 125 → ∃ regs off oracle draws calls,
      exec (.engDispatch r) s = .next { s with
        regs := regs, offset := off, oracle := oracle, draws := draws, trace := s.trace ++ calls,
        resp := normalFrame r.unitId 0x04 regs, crc := crcRaw (normalBody r.unitId 0x04 regs),
        ret := .bytes (normalFrame r.unitId 0x04 regs) } ∧
      exec (.engAssemble r.address r.count) s = .next { s with
        regs := regs, offset := off, oracle := oracle, draws := draws, trace := s.trace ++ calls, ret := .words regs } ∧
      off.toNat = regs.length ∧ r.count.toNat ≤ regs.length ∧ regs.length ≤ r.count.toNat + 1 ∧ spans calls = [])

/-- R201, R238: the buffer, the cursor, the latch, the block, the response and the Requests not yet dispatched are abandoned and
the engine is `Idle`; the statistics, the deadline and the configuration are untouched. -/
def Obligations.TransportFailureAbandonsTheRequest : Prop :=
  ∀ (side : Side) (s : State), exec (.engXfail side) s = .next { s with
    buf := [], bp := 0, req := none, regs := [], offset := 0, resp := [], pending := [], fsm := .idle, ret := .unit }

/-- R261, and R262 for what it does not touch: what power-on reset leaves, the time of its release being now. That `SILENCE_TICKS`
is `38 * TICKS_PER_BIT` also with a free-running tick is the model's choice (log 33). Nothing is said of `S.crc` and `CFG_UNIT_ID`, which it leaves unspecified. The transport's queue, time, the parameters and what the outside world
will do next go on. -/
def Obligations.PowerOnResetKeepsNothingOfTheBlock : Prop :=
  ∀ s : State, ∃ t, exec .engReset s = .next t ∧
    t.buf = [] ∧ t.bp = 0 ∧ t.req = none ∧ t.regs = [] ∧ t.offset = 0 ∧ t.resp = [] ∧
    t.deadline = s.now + t.cfgSilence ∧ t.fsm = .idle ∧ t.stats = [] ∧ t.total = 0 ∧
    t.cfgSilence = 38 * s.cfg.ticksPerBit ∧
    t.now = s.now ∧ t.rx = s.rx ∧ t.cfg = s.cfg ∧ t.world = s.world ∧ t.oracle = s.oracle

/-- R36: the fields of the state right after reset that the spec gives a value, the deadline counted from the release. The last
two clauses are no reset values: that the parameters are the defaults of R6 and R8 is the model's choice (log 5). -/
def Obligations.ResetStateHasTheSpecsValues : Prop :=
  State.reset.buf = [] ∧ State.reset.bp = 0 ∧ State.reset.req = none ∧ State.reset.regs = [] ∧ State.reset.offset = 0 ∧
  State.reset.resp = [] ∧ State.reset.deadline = State.reset.now + State.reset.cfgSilence ∧ State.reset.fsm = .idle ∧
  State.reset.stats = [] ∧ State.reset.total = 0 ∧ State.reset.cfgSilence = 38 * State.reset.cfg.ticksPerBit ∧
  State.reset.cfg.baud = 9600 ∧ State.reset.cfg.ticksPerBit = 1

/-- R215: a poll begun in `Idle` always completes, whatever the input, and ends in `Idle`, so that the next one is accepted. -/
def Obligations.EveryPollCompletesAndEndsInIdle : Prop :=
  ∀ s : State, s.fsm = .idle → ∃ t, exec .engPoll s = .next t ∧ t.fsm = .idle ∧ ∃ u, exec .engPoll t = .next u

/-! ### The request and response rows -/

/-- R205, R206, R236, as one step (the model's choice, log 6): a foreign request is counted and otherwise ignored: the engine
goes on to the next Request or to `Idle`, and nothing else changes. -/
def Obligations.ForeignRequestIsCountedAndIgnored : Prop :=
  ∀ (u f : Byte) (a n : Word) (s : State), ∃ m, m = bumpStats ⟨u, f, a, n⟩ s.stats ∧
    (s.pending = [] → exec (.reqForeign u f a n) s = .next { s with
      stats := m, total := s.total + 1, req := none, fsm := .idle }) ∧
    (∀ r rs, s.pending = r :: rs → exec (.reqForeign u f a n) s = .next { s with
      stats := m, total := s.total + 1, req := some r, pending := rs, fsm := .dispatching })

/-- R207, R231, R241: an unsupported function is counted and takes the exception 0x01: nothing is saved, no mode changes, the
response stands in TXBUF and the engine is in `Responding`, where the step of the row ends (the model's choice, log 6 and log 8).
The address and the count are not examined. -/
def Obligations.UnsupportedFunctionTakesException01 : Prop :=
  ∀ (u f : Byte) (a n : Word) (s : State), exec (.reqUnsupportedFunction u f a n) s = .next { s with
    stats := bumpStats ⟨u, f, a, n⟩ s.stats, total := s.total + 1, req := some (Request.ofFields u f a n),
    crc := crcRaw [u, f ||| 0x80, 0x01],
    resp := [u, f ||| 0x80, 0x01, lo8 (crcRaw [u, f ||| 0x80, 0x01]), hi8 (crcRaw [u, f ||| 0x80, 0x01])],
    fsm := .responding }

/-- R208, R232, R241: a count above 125 is counted and takes the exception 0x03, function byte 0x84; no call of the value source
is made. The row's step ends in `Responding` (log 6, log 8). -/
def Obligations.OversizedCountTakesException03 : Prop :=
  ∀ (u : Byte) (a n : Word) (s : State), exec (.reqCountTooLarge u a n) s = .next { s with
    stats := bumpStats ⟨u, 0x04, a, n⟩ s.stats, total := s.total + 1, req := some (Request.ofFields u 0x04 a n),
    crc := crcRaw [u, 0x84, 0x03], resp := [u, 0x84, 0x03, lo8 (crcRaw [u, 0x84, 0x03]), hi8 (crcRaw [u, 0x84, 0x03])],
    fsm := .responding }

/-- R209, R205: an accepted request is counted, its block is what `ENG.ASSEMBLE` builds, `count` or `count + 1` registers, and the normal response
that carries it stands in TXBUF with the engine in `Responding`, where the row's step ends (log 6, log 8). -/
def Obligations.AcceptedRequestPreparesTheNormalResponse : Prop :=
  ∀ (u : Byte) (a n : Word) (s : State), n ≤ 125 → ∃ regs off oracle draws calls,
    exec (.reqReadInputRegisters u a n) s = .next { s with
      stats := bumpStats ⟨u, 0x04, a, n⟩ s.stats, total := s.total + 1, req := some (Request.ofFields u 0x04 a n),
      regs := regs, offset := off, oracle := oracle, draws := draws, trace := s.trace ++ calls,
      crc := crcRaw (normalBody u 0x04 regs), resp := normalFrame u 0x04 regs, fsm := .responding } ∧
    exec (.engAssemble a n) s = .next { s with
      regs := regs, offset := off, oracle := oracle, draws := draws, trace := s.trace ++ calls, ret := .words regs } ∧
    off.toNat = regs.length ∧ n.toNat ≤ regs.length ∧ regs.length ≤ n.toNat + 1 ∧ spans calls = []

/-- R201, R206: for every well-formed Request, the table row the decoder selects does what the engine's loop does with it: latch,
statistics, `ENG.DISPATCH`, and then the next Request or `Responding` (the grain of a step is the model's choice, log 6). -/
def Obligations.RequestRowsDoWhatTheEnginesLoopDoes : Prop :=
  ∀ (r : Request) (s : State), r.wellFormed = true →
    exec (r.row s.cfgUnitId) s = .next
      (match dispatch r (countRequest r (latchRequest r s)) with
       | (none, t) => nextRequest t
       | (some _, t) => { t with fsm := .responding })

/-- R210, R234, R242, R238: each response row passes the gate, is written once and marked; written, TXBUF is empty and the engine
returns from the request; failed, the request and everything after it are abandoned. That a response row is the sending of its
frame is the model's reading (log 8). -/
def Obligations.ResponseRowsAreSentOnceAndReturn : Prop :=
  ∀ (i : Instr) (frame : List Byte) (s : State),
    (∃ u regs, i = .rspNormal u regs ∧ regs.length ≤ 126) ∨ (∃ u f7, i = .rspExcIllegalFunction u f7) ∨
      (∃ u, i = .rspExcIllegalDataValue u) →
    encode i = some frame →
    ∃ t t0 t1 crc arrived oracle draws, exec i s = .next t ∧ max s.now s.deadline ≤ t0 ∧ t0 ≤ t1 ∧
      ((∃ req pending fsm, t = { s with
          now := t1, rx := s.rx ++ arrived, oracle := oracle, draws := draws, crc := crc, resp := [],
          deadline := t1 + s.cfgSilence, trace := s.trace ++ [.tx frame t0 t1],
          req := req, pending := pending, fsm := fsm } ∧
        (s.pending = [] → req = none ∧ pending = [] ∧ fsm = .idle) ∧
        (∀ r rs, s.pending = r :: rs → req = some r ∧ pending = rs ∧ fsm = .dispatching)) ∨
       (∃ gone, gone ≤ frame.length ∧ t = { s with
          now := t1, rx := s.rx ++ arrived, oracle := oracle, draws := draws, crc := crc, resp := [],
          deadline := t1 + s.cfgSilence, trace := s.trace ++ [.txFailed frame gone t0 t1],
          buf := [], bp := 0, req := none, regs := [], offset := 0, pending := [], fsm := .idle }))

/-! ### Encodings (30_encoding.md) -/

/-- Decode and encode agree: every well-formed row that has an encoding is read back from it, with every operand. -/
def Obligations.DecodeOfEncodeIsTheInstruction : Prop :=
  ∀ (unit : Byte) (i : Instr) (bytes : List Byte), i.wellFormed unit = true → encode i = some bytes →
    decode unit bytes = .ok i

/-- Every byte sequence the decoder accepts is the encoding of the row it answers, and that row is well-formed. -/
def Obligations.EncodeOfDecodeIsTheFrame : Prop :=
  ∀ (unit : Byte) (bytes : List Byte) (i : Instr), decode unit bytes = .ok i →
    encode i = some bytes ∧ i.wellFormed unit = true

/-- R84: the five request rows partition all 8-byte windows: each is the encoding of exactly one well-formed row, the one the
decoder answers, and that is a request row. -/
def Obligations.RequestRowsPartitionAllWindows : Prop :=
  ∀ (unit : Byte) (w : List Byte), w.length = 8 → ∃ i, decode unit w = .ok i ∧
    encode i = some w ∧ i.wellFormed unit = true ∧
    ((∃ u f a n lo hi, i = .reqInvalid u f a n lo hi) ∨ (∃ u f a n, i = .reqForeign u f a n) ∨
      (∃ u f a n, i = .reqUnsupportedFunction u f a n) ∨ (∃ u a n, i = .reqCountTooLarge u a n) ∨
      (∃ u a n, i = .reqReadInputRegisters u a n)) ∧
    ∀ j, j.wellFormed unit = true → encode j = some w → j = i

/-- The frames the spec prints for each format decode to the rows they stand for (95_test_vectors.md), with `UNIT_ID = 2`. -/
def Obligations.PrintedFramesDecodeToTheirRows : Prop :=
  decode 2 [0x02, 0x04, 0x00, 0x00, 0x00, 0x12, 0x70, 0x34] = .ok (.reqReadInputRegisters 2 0 18) ∧
  decode 2 [0x02, 0x04, 0x00, 0x00, 0x00, 0x7E, 0x70, 0x19] = .ok (.reqCountTooLarge 2 0 126) ∧
  decode 2 [0x02, 0x03, 0x00, 0x00, 0x00, 0x02, 0xC4, 0x38] = .ok (.reqUnsupportedFunction 2 3 0 2) ∧
  decode 2 [0x01, 0x04, 0x00, 0x00, 0x00, 0x02, 0x71, 0xCB] = .ok (.reqForeign 1 4 0 2) ∧
  decode 2 [0x02, 0x04, 0x00, 0x00, 0x00, 0x13, 0x70, 0x34] = .ok (.reqInvalid 2 4 0 19 0x70 0x34) ∧
  decode 2 [0x02, 0x04, 0x04, 0x43, 0x73, 0x00, 0x00, 0x2C, 0xDB] = .ok (.rspNormal 2 [0x4373, 0x0000]) ∧
  decode 2 [0x02, 0x83, 0x01, 0x70, 0xF0] = .ok (.rspExcIllegalFunction 2 3) ∧
  decode 2 [0x02, 0x84, 0x03, 0xF3, 0x01] = .ok (.rspExcIllegalDataValue 2)

/-! ### Steps and runs -/

/-- A step runs the row the engine's state selects: in `Scanning` the window at the cursor that is no frame, in `Dispatching` the
latched Request, in `Responding` the frame in TXBUF; and power-on reset whenever it is released (log 6, log 7). -/
def Obligations.StepRunsTheDecodedInstruction : Prop :=
  (∀ (s : State) ms, s.world = .reset :: ms → step s = exec .engReset { s with world := ms }) ∧
  (∀ s : State, (∀ ms, s.world ≠ .reset :: ms) →
    (∀ w i, s.fsm = .scanning → memRead s.bp 8 s.buf = some w → decodeRequest w = none →
      decodeWindow s.cfgUnitId w = some i → step s = exec i s) ∧
    (∀ r, s.fsm = .dispatching → s.req = some r → step s = exec (r.row s.cfgUnitId) s) ∧
    (∀ r i, s.fsm = .dispatching → s.req = some r → r.wellFormed = true → decodeWindow s.cfgUnitId r.raw = some i →
      step s = exec i s) ∧
    (∀ i, s.fsm = .responding → decodeResponse s.resp = .ok i → step s = exec i s))

/-- A table word placed where the machine takes its next row is run by the very next step (log 7). -/
def Obligations.PlacedTableWordIsRunByTheNextStep : Prop :=
  ∀ (s : State) (nbits w : Nat) (i : Instr), (∀ ms, s.world ≠ .reset :: ms) → s.cfgUnitId = resetUnitId →
    decodeTableWord nbits w = some i → step (s.withFetchWord nbits w) = exec i (s.withFetchWord nbits w)

/-- R12, R16, R202, R58, R65: in `Idle`, when the poller polls, which it also does with no move of the outside world waiting (log
11), a step begins a poll. With the transport's answers fixed in advance it takes exactly the bytes answered, at most the number
reported, from the front of the queue and appends them to the buffer; a failure on either call is the transport failure of R238,
and a failed count leaves the queue as it is. That the number reported is the whole queue's and that a failed read may leave any
queue are the model's (log 12, log 13). -/
def Obligations.PollReadsAtMostTheReportedBytes : Prop :=
  ∀ (s : State) (as : List AvailAnswer) (rs : List ReadAnswer) (left : List Byte) (k : Nat) (ms : List Move),
    s.fsm = .idle → (s.world = [] ∧ ms = []) ∨ s.world = .poll :: ms →
    (s.oracle.avail = .ok :: as → s.oracle.read = .bytes k :: rs → step s = .next { s with
      world := ms, running := true, oracle := { s.oracle with avail := as, read := rs }, rx := s.rx.drop (min k s.rx.length),
      buf := s.buf ++ s.rx.take (min k s.rx.length), bp := 0, pending := [], fsm := .scanning }) ∧
    (s.oracle.avail = .fail :: as → step s = .next { s with
      world := ms, running := true, oracle := { s.oracle with avail := as }, buf := [], bp := 0, req := none, regs := [],
      offset := 0, resp := [], pending := [], fsm := .idle, ret := .unit }) ∧
    (s.oracle.avail = .ok :: as → s.oracle.read = .fail left :: rs → step s = .next { s with
      world := ms, running := true, oracle := { s.oracle with avail := as, read := rs }, rx := left, buf := [], bp := 0,
      req := none, regs := [], offset := 0, resp := [], pending := [], fsm := .idle, ret := .unit })

/-- R14, R30, R34, R263, U8: between polls time passes, bytes reach the transport's queue in order, and the host writes the two
configuration registers, until the first poll has begun; after that the write is refused by name. When such a move lands is
the model's choice (log 11, log 18). -/
def Obligations.OutsideMovesBetweenPolls : Prop :=
  ∀ (s : State) (ms : List Move), s.fsm = .idle →
    (∀ k, s.world = .elapse k :: ms → step s = .next { s with world := ms, now := s.now + k }) ∧
    (∀ bs, s.world = .arrive bs :: ms → step s = .next { s with world := ms, rx := s.rx ++ bs }) ∧
    (∀ v, s.world = .writeUnitId v :: ms → s.running = false → step s = .next { s with world := ms, cfgUnitId := v }) ∧
    (∀ k, s.world = .writeSilence k :: ms → s.running = false → step s = .next { s with world := ms, cfgSilence := k }) ∧
    (∀ v, s.world = .writeUnitId v :: ms → s.running = true → step s = .refused .configurationWhileRunning) ∧
    (∀ k, s.world = .writeSilence k :: ms → s.running = true → step s = .refused .configurationWhileRunning)

/-- R211: the transitions of `S.fsm`, each under its condition. From `Idle` to `Scanning` when the poller polls and its chunk has
been read; a step that stays in `Idle` makes another move of the outside world or has failed to read. From `Scanning`, once no
whole window is left, to `Dispatching` with the first Request yielded, or to `Idle` if none was. From `Dispatching` to
`Responding` for a Request to this unit; for a foreign one to the next Request, or to `Idle` if none waits. From `Responding`,
the frame written, to the next Request, or to `Idle` if none waits; the write failed, to `Idle`. A power-on reset leads to `Idle`
from everywhere. A step may also stay in `Scanning` (one window; the grain of a step is the model's choice, log 6). -/
def Obligations.EngineStateMovesOnlyAlongItsTransitions : Prop :=
  ∀ s t : State, step s = .next t →
    (s.fsm = .idle →
      (t.fsm = .idle ∧ ((∃ m ms, s.world = m :: ms ∧ m ≠ .poll) ∨ t.buf = [])) ∨
      (t.fsm = .scanning ∧ (s.world = [] ∨ ∃ ms, s.world = .poll :: ms) ∧
        ∃ chunk, s.rx = chunk ++ t.rx ∧ t.buf = s.buf ++ chunk ∧ t.bp = 0 ∧ t.pending = [])) ∧
    (s.fsm = .scanning →
      (t.fsm = .scanning ∧ s.bp + 8 ≤ s.buf.length) ∨
      (t.fsm = .dispatching ∧ s.buf.length < s.bp + 8 ∧ ∃ r rs, s.pending = r :: rs ∧ t.req = some r ∧ t.pending = rs) ∨
      (t.fsm = .idle ∧ ((∃ ms, s.world = .reset :: ms) ∨ (s.buf.length < s.bp + 8 ∧ s.pending = [])))) ∧
    (s.fsm = .dispatching →
      (t.fsm = .responding ∧ ∃ r, s.req = some r ∧ r.unitId = s.cfgUnitId) ∨
      (t.fsm = .dispatching ∧ (∀ r, s.req = some r → r.unitId ≠ s.cfgUnitId) ∧
        ∃ r rs, s.pending = r :: rs ∧ t.req = some r ∧ t.pending = rs) ∨
      (t.fsm = .idle ∧ ((∃ ms, s.world = .reset :: ms) ∨
        ((∀ r, s.req = some r → r.unitId ≠ s.cfgUnitId) ∧ s.pending = [])))) ∧
    (s.fsm = .responding →
      (t.fsm = .dispatching ∧ (∃ t0 t1, t.trace = s.trace ++ [.tx s.resp t0 t1]) ∧
        ∃ r rs, s.pending = r :: rs ∧ t.req = some r ∧ t.pending = rs) ∨
      (t.fsm = .idle ∧ ((∃ ms, s.world = .reset :: ms) ∨
        ((∃ t0 t1, t.trace = s.trace ++ [.tx s.resp t0 t1]) ∧ s.pending = []) ∨
        ∃ gone t0 t1, t.trace = s.trace ++ [.txFailed s.resp gone t0 t1])))

/-- R201, R204 against the steps: from `Idle` between polls, with no other move of the outside world waiting, the steps of one
poll lead exactly to the state `ENG.POLL` answers, and the engine is busy at every step before. -/
def Obligations.StepsOfAPollLeadToThePollsResult : Prop :=
  ∀ s : State, s.fsm = .idle → s.world = [] → s.ControlInv →
    ∃ k t u, 0 < k ∧ stepN k s = .next t ∧ exec .engPoll s = .next u ∧ u = { t with ret := .unit } ∧
      ∀ j, 0 < j → j < k → ∃ v, stepN j s = .next v ∧ v.fsm ≠ .idle

/-- R215, R243: nothing is fatal: unless the host asks for a late configuration change, every state has a next one. -/
def Obligations.NothingIsFatal : Prop :=
  ∀ s : State, s.NoLateConfiguration → ∃ t, step s = .next t

/-- R29, R205: the statistics are never read back: two states that differ in them alone step to states that differ in them
alone, and stop alike. -/
def Obligations.StatisticsAreNeverReadBack : Prop :=
  ∀ (s : State) (m : List (Signature × Nat)) (n : Nat),
    (∀ t, step s = .next t → ∃ m' n', step { s with stats := m, total := n } = .next { t with stats := m', total := n' }) ∧
    (∀ r, step s = .refused r → step { s with stats := m, total := n } = .refused r)

/-! ### Invariants -/

/-- R21, R37 I1 to I3, R131: every step keeps the receive buffer's invariant. -/
def Obligations.StepKeepsTheBufferBoundedAndFrameless : Prop :=
  ∀ s t : State, s.BufferInv → step s = .next t → t.BufferInv

/-- R24, R25, R26, R28, R37 I4: every step keeps the Requests well-formed, the lengths bounded, and what the latch, the queue
and TXBUF hold in each state of the engine; in `Responding` TXBUF always holds a frame of a response row. -/
def Obligations.StepKeepsTheEnginesRegistersConsistent : Prop :=
  ∀ s t : State, s.RequestInv → s.LengthInv → s.ControlInv → step s = .next t →
    t.RequestInv ∧ t.LengthInv ∧ t.ControlInv

/-- R29, R37 I5, I6: every step keeps the map canonical and the total the sum of its counts, and no count and no total
decreases, power-on reset aside. -/
def Obligations.StepKeepsTheStatisticsExactAndGrowing : Prop :=
  ∀ s t : State, s.StatsInv → step s = .next t → t.StatsInv ∧
    ((∀ ms, s.world ≠ .reset :: ms) → s.total ≤ t.total ∧ ∀ k, statsCount k s.stats ≤ statsCount k t.stats)

/-- R191: every step keeps every transmission at least `SILENCE_TICKS` after the end of every earlier one. -/
def Obligations.StepKeepsTheSilenceBetweenTransmissions : Prop :=
  ∀ s t : State, s.SilenceInv → step s = .next t → t.SilenceInv

/-- R190: only the response step transmits, at most once, at a time not before the deadline, and it moves the deadline to the end
of the transmission plus `SILENCE_TICKS`; any other step, power-on reset aside, transmits nothing and keeps the deadline. -/
def Obligations.OnlyTheResponseStepTransmits : Prop :=
  ∀ s t : State, step s = .next t → (∀ ms, s.world ≠ .reset :: ms) →
    (spans t.trace = spans s.trace ∧ t.deadline = s.deadline) ∨
    (s.fsm = .responding ∧ ∃ t0 t1, spans t.trace = spans s.trace ++ [(t0, t1)] ∧ max s.now s.deadline ≤ t0 ∧ t0 ≤ t1 ∧
      t.deadline = t1 + s.cfgSilence)

/-- R14, R20, R30, R244: time never runs backwards; the parameters never change; the two configuration registers change by a
power-on reset or by a host write before the first poll only (`running` is the model's own, log 18). -/
def Obligations.TimeRunsForwardAndConfigurationStays : Prop :=
  ∀ s t : State, step s = .next t → s.now ≤ t.now ∧ t.cfg = s.cfg ∧
    (s.running = true → (∀ ms, s.world ≠ .reset :: ms) →
      t.running = true ∧ t.cfgUnitId = s.cfgUnitId ∧ t.cfgSilence = s.cfgSilence)

/-- The state right after reset meets every invariant above. -/
def Obligations.ResetMeetsEveryInvariant : Prop :=
  State.reset.BufferInv ∧ State.reset.RequestInv ∧ State.reset.LengthInv ∧ State.reset.ControlInv ∧ State.reset.StatsInv ∧
  State.reset.SilenceInv ∧ State.reset.NoLateConfiguration
end

