-- ==== Sys2Proof/Laws/Crc.lean ====
section
/-! SUPPORT. Laws of the byte-order helpers and of the CRC16 Codec. -/

namespace Sys2Proof.Machine

/-! ### Bytes and words -/

@[simp] theorem hi8_be16 (h l : Byte) : hi8 (be16 h l) = h := by
  apply BitVec.eq_of_getLsbD_eq
  intro i hi
  simp only [be16, hi8, BitVec.getLsbD_append, BitVec.getLsbD_extractLsb']
  simp [hi]

@[simp] theorem lo8_be16 (h l : Byte) : lo8 (be16 h l) = l := by
  apply BitVec.eq_of_getLsbD_eq
  intro i hi
  simp only [be16, lo8, BitVec.getLsbD_append, BitVec.getLsbD_extractLsb']
  simp [hi]

@[simp] theorem be16_hi8_lo8 (v : Word) : be16 (hi8 v) (lo8 v) = v := by
  apply BitVec.eq_of_getLsbD_eq
  intro i hi
  simp only [be16, hi8, lo8, BitVec.getLsbD_append, BitVec.getLsbD_extractLsb']
  split
  · simp [*]
  · rw [show 8 + (i - 8) = i by omega]
    simp; omega

@[simp] theorem bytesBe16_be16 (h l : Byte) : bytesBe16 (be16 h l) = [h, l] := by
  simp [bytesBe16]

@[simp] theorem bytesBe16_length (v : Word) : (bytesBe16 v).length = 2 := rfl

@[simp] theorem crcWire_length (body : List Byte) : (crcWire body).length = 2 := rfl

@[simp] theorem swapBytes_swapBytes (v : Word) : swapBytes (swapBytes v) = v := by
  simp [swapBytes]

/-- The wire carries the accumulator's low byte first (R52). -/
theorem crcWire_eq (body : List Byte) : crcWire body = [lo8 (crcRaw body), hi8 (crcRaw body)] := by
  simp [crcWire, crcCompute, swapBytes, bytesBe16]

/-- A word is its high byte over its low byte. -/
theorem word_split (v : Word) : v = be16 (hi8 v) 0 ^^^ (lo8 v).setWidth 16 := by
  apply BitVec.eq_of_getLsbD_eq
  intro i hi
  simp only [be16, hi8, lo8, BitVec.getLsbD_append, BitVec.getLsbD_extractLsb', BitVec.getLsbD_xor,
    BitVec.getLsbD_setWidth]
  by_cases h : i < 8
  · simp [h, hi]
  · rw [show 8 + (i - 8) = i by omega]
    simp [h, hi]
    omega

/-- A shift by eight leaves the high byte. -/
theorem ushiftRight_eight (v : Word) : v >>> 8 = (hi8 v).setWidth 16 := by
  apply BitVec.eq_of_getLsbD_eq
  intro i hi
  simp only [hi8, BitVec.getLsbD_extractLsb', BitVec.getLsbD_ushiftRight, BitVec.getLsbD_setWidth]
  by_cases h : i < 8
  · simp [h, hi]
  · have : v.getLsbD (8 + i) = false := BitVec.getLsbD_of_ge _ _ (by omega)
    simp [h, this]

/-! ### The bit loop is linear over XOR -/

theorem crcShift_xor (a b : Word) : crcShift (a ^^^ b) = crcShift a ^^^ crcShift b := by
  simp only [crcShift, BitVec.getLsbD_xor, BitVec.ushiftRight_xor_distrib]
  cases ha : a.getLsbD 0 <;> cases hb : b.getLsbD 0 <;> simp
  · ac_rfl
  · ac_rfl
  · rw [show a >>> 1 ^^^ crcPoly ^^^ (b >>> 1 ^^^ crcPoly)
      = (crcPoly ^^^ crcPoly) ^^^ (a >>> 1 ^^^ b >>> 1) by ac_rfl]
    simp

theorem crcBits_xor (k : Nat) (a b : Word) : crcBits k (a ^^^ b) = crcBits k a ^^^ crcBits k b := by
  induction k generalizing a b with
  | zero => rfl
  | succ k ih => simp only [crcBits, crcShift_xor, ih]

/-- Eight iterations on a value whose low byte is zero only shift it (R105). -/
theorem crcBits_high : ∀ h : Byte, crcBits 8 (be16 h 0) = h.setWidth 16 := by decide

/-- R104: every entry the spec prints is the bit loop run on its index. -/
theorem crcTable_getD : ∀ b : Byte, crcTable.getD b.toNat 0 = crcStep 0 b := by decide

/-! ### Folds -/

@[simp] theorem crcRaw_nil : crcRaw [] = crcInit := rfl

theorem crcRaw_append (d e : List Byte) : crcRaw (d ++ e) = e.foldl crcStep (crcRaw d) := by
  simp [crcRaw, List.foldl_append]

/-- Folding the two bytes of an accumulator into it, low byte first, clears it (R107 b). -/
theorem crcStep_lo_hi (a : Word) : crcStep (crcStep a (lo8 a)) (hi8 a) = 0 := by
  have e : crcStep a (lo8 a) = (hi8 a).setWidth 16 := by
    have h : a ^^^ (lo8 a).setWidth 16 = be16 (hi8 a) 0 := by
      have w := congrArg (· ^^^ (lo8 a).setWidth 16) (word_split a)
      simpa only [BitVec.xor_assoc, BitVec.xor_self, BitVec.xor_zero] using w
    rw [crcStep, h, crcBits_high]
  rw [e]
  exact (by decide : ∀ h : Byte, crcStep (h.setWidth 16) h = 0) _

end Sys2Proof.Machine
end

