-- ==== Sys2Proof/Laws/Decode.lean ====
section
/-! SUPPORT. Laws of the frame layouts, of `DEC.DECODE` and of the response reader. -/

namespace Sys2Proof

open Sys2Proof.Machine

@[simp] theorem requestBody_length (u f : Byte) (a n : Word) : (requestBody u f a n).length = 6 := rfl

@[simp] theorem requestFrame_length (u f : Byte) (a n : Word) : (requestFrame u f a n).length = 8 := rfl

/-! ### The CRC check, as equality of the two CRC bytes -/

/-- `CRC.VERIFY` against two wire bytes holds exactly if they are the CRC bytes (R52, R103). -/
theorem crcVerify_be16 (body : List Byte) (hi lo : Byte) :
    crcVerify body (be16 hi lo) = true ↔ crcWire body = [hi, lo] := by
  simp only [crcVerify, beq_iff_eq, crcWire, bytesBe16]
  constructor
  · intro h; simp [h]
  · intro h
    have h1 : hi8 (crcCompute body) = hi := by simpa using congrArg (fun l => l.head?) h
    have h2 : lo8 (crcCompute body) = lo := by simpa using congrArg (fun l => l.tail.head?) h
    rw [← h1, ← h2, be16_hi8_lo8]

/-! ### `DEC.DECODE` -/

/-- A sequence of any other length is `invalid` (R144). -/
theorem decodeRequest_of_length_ne {w : List Byte} (h : w.length ≠ 8) : decodeRequest w = none := by
  unfold decodeRequest
  split
  · simp at h
  · rfl

theorem length_of_decodeRequest {w : List Byte} {r : Request} (h : decodeRequest w = some r) : w.length = 8 := by
  by_contra hn
  rw [decodeRequest_of_length_ne hn] at h
  cases h

/-- The Request of the frame with these fields (R71, R141). -/
theorem decodeRequest_requestFrame (u f : Byte) (a n : Word) :
    decodeRequest (requestFrame u f a n) = some (Request.ofFields u f a n) := by
  have e : requestFrame u f a n = [u, f, hi8 a, lo8 a, hi8 n, lo8 n,
      hi8 (crcCompute (requestBody u f a n)), lo8 (crcCompute (requestBody u f a n))] := rfl
  have v : crcVerify [u, f, hi8 a, lo8 a, hi8 n, lo8 n]
      (be16 (hi8 (crcCompute (requestBody u f a n))) (lo8 (crcCompute (requestBody u f a n)))) = true := by
    rw [crcVerify_be16]; rfl
  rw [e, decodeRequest, if_pos v, be16_hi8_lo8, be16_hi8_lo8, ← e]
  rfl

/-- What `DEC.DECODE` accepts is the frame of the Request's own fields, kept in `raw` (R24, R145). -/
theorem decodeRequest_eq_some {w : List Byte} {r : Request} (h : decodeRequest w = some r) :
    r = Request.ofFields r.unitId r.functionCode r.address r.count ∧
      w = requestFrame r.unitId r.functionCode r.address r.count := by
  unfold decodeRequest at h
  split at h
  · rename_i u f aHi aLo nHi nLo c6 c7
    split at h
    · rename_i hv
      rw [crcVerify_be16] at hv
      simp only [Option.some.injEq] at h
      subst h
      have : requestFrame u f (be16 aHi aLo) (be16 nHi nLo) = [u, f, aHi, aLo, nHi, nLo, c6, c7] := by
        have b : requestBody u f (be16 aHi aLo) (be16 nHi nLo) = [u, f, aHi, aLo, nHi, nLo] := by
          simp [requestBody]
        rw [requestFrame, b, hv]; rfl
      simp [Request.ofFields, this]
    · cases h
  · cases h

theorem wellFormed_ofFields (u f : Byte) (a n : Word) : (Request.ofFields u f a n).wellFormed = true := by
  simp [Request.wellFormed, Request.ofFields]

theorem wellFormed_of_decodeRequest {w : List Byte} {r : Request} (h : decodeRequest w = some r) :
    r.wellFormed = true := by
  rw [(decodeRequest_eq_some h).1]; exact wellFormed_ofFields ..

theorem eq_ofFields_of_wellFormed {r : Request} (h : r.wellFormed = true) :
    r = Request.ofFields r.unitId r.functionCode r.address r.count := by
  simpa [Request.wellFormed] using h

/-! ### Windows -/

/-- Every list of eight bytes, written out. -/
theorem eq_of_length_eight {w : List Byte} (h : w.length = 8) :
    ∃ a b c d e f g i, w = [a, b, c, d, e, f, g, i] := by
  match w, h with
  | [a, b, c, d, e, f, g, i], _ => exact ⟨a, b, c, d, e, f, g, i, rfl⟩

/-- A window that is no frame is the row `REQ.INVALID` with its bytes as fields. -/
theorem decodeWindow_of_invalid {unit : Byte} {w : List Byte} (hl : w.length = 8) (h : decodeRequest w = none) :
    ∃ u f a n lo hi, decodeWindow unit w = some (.reqInvalid u f a n lo hi) ∧ w = requestBody u f a n ++ [lo, hi] := by
  obtain ⟨a, b, c, d, e, f, g, i, rfl⟩ := eq_of_length_eight hl
  refine ⟨a, b, be16 c d, be16 e f, g, i, ?_, by simp [requestBody]⟩
  simp [decodeWindow, h]

theorem decodeWindow_of_valid {unit : Byte} {w : List Byte} {r : Request} (h : decodeRequest w = some r) :
    decodeWindow unit w = some (r.row unit) := by
  obtain ⟨a, b, c, d, e, f, g, i, rfl⟩ := eq_of_length_eight (length_of_decodeRequest h)
  simp [decodeWindow, h]

theorem decodeWindow_of_length_ne {unit : Byte} {w : List Byte} (h : w.length ≠ 8) : decodeWindow unit w = none := by
  unfold decodeWindow
  split
  · simp at h
  · rfl

/-! ### Responses -/

@[simp] theorem bytesOfRegs_nil : bytesOfRegs [] = [] := rfl

@[simp] theorem bytesOfRegs_cons (v : Word) (l : List Word) : bytesOfRegs (v :: l) = hi8 v :: lo8 v :: bytesOfRegs l := rfl

@[simp] theorem bytesOfRegs_length (l : List Word) : (bytesOfRegs l).length = 2 * l.length := by
  induction l with
  | nil => rfl
  | cons v l ih => simp [ih]; omega

theorem regsOfBytes_bytesOfRegs (l : List Word) : regsOfBytes (bytesOfRegs l) = l := by
  induction l with
  | nil => rfl
  | cons v l ih => simp [regsOfBytes, ih]

theorem bytesOfRegs_regsOfBytes : ∀ (n : Nat) (bs : List Byte), bs.length = 2 * n → bytesOfRegs (regsOfBytes bs) = bs
  | 0, bs, h => by
    have : bs = [] := List.length_eq_zero_iff.mp (by omega)
    simp [this, regsOfBytes]
  | n + 1, [], h => by simp at h
  | n + 1, [_], h => by simp at h; omega
  | n + 1, a :: b :: rest, h => by
    simp only [List.length_cons] at h
    simp [regsOfBytes, bytesOfRegs_regsOfBytes n rest (by omega)]

theorem regsOfBytes_length : ∀ (n : Nat) (bs : List Byte), bs.length = 2 * n → (regsOfBytes bs).length = n
  | 0, bs, h => by
    have : bs = [] := List.length_eq_zero_iff.mp (by omega)
    simp [this, regsOfBytes]
  | n + 1, [], h => by simp at h
  | n + 1, [_], h => by simp at h; omega
  | n + 1, a :: b :: rest, h => by
    simp only [List.length_cons] at h
    simp [regsOfBytes, regsOfBytes_length n rest (by omega)]

@[simp] theorem normalBody_length (u f : Byte) (regs : List Word) : (normalBody u f regs).length = 3 + 2 * regs.length := by
  simp [normalBody]; omega

/-- R173: `5 + 2 * len(regs)` bytes. -/
@[simp] theorem normalFrame_length (u f : Byte) (regs : List Word) : (normalFrame u f regs).length = 5 + 2 * regs.length := by
  simp [normalFrame]; omega

@[simp] theorem exceptionBody_length (u f e : Byte) : (exceptionBody u f e).length = 3 := rfl

/-- R173: five bytes. -/
@[simp] theorem exceptionFrame_length (u f e : Byte) : (exceptionFrame u f e).length = 5 := rfl

/-- Below 127 registers the byte count is exact (R75, R166). -/
theorem byteCount_toNat {n : Nat} (h : n ≤ 127) : (BitVec.ofNat 8 (2 * n)).toNat = 2 * n := by
  simp; omega

theorem decodeResponse_normalFrame (u : Byte) (regs : List Word) (h : regs.length ≤ 126) :
    decodeResponse (normalFrame u fnReadInput regs) = .ok (.rspNormal u regs) := by
  have hc := byteCount_toNat (n := regs.length) (by omega)
  have e : normalFrame u fnReadInput regs = u :: fnReadInput :: BitVec.ofNat 8 (2 * regs.length) ::
      (bytesOfRegs regs ++ crcWire (normalBody u fnReadInput regs)) := rfl
  have h7 : fnReadInput.getLsbD 7 = false := by decide
  have ht : (bytesOfRegs regs ++ crcWire (normalBody u fnReadInput regs)).take (2 * regs.length) = bytesOfRegs regs :=
    List.take_left' (by simp)
  have hd : (bytesOfRegs regs ++ crcWire (normalBody u fnReadInput regs)).drop (2 * regs.length)
      = crcWire (normalBody u fnReadInput regs) := List.drop_left' (by simp)
  rw [e, decodeResponse]
  simp only [h7, Bool.false_eq_true, if_false, ne_eq, not_true_eq_false, hc, ht, hd, regsOfBytes_bytesOfRegs]
  rw [if_neg (by simp [maxRegs]; omega), if_neg (by simp), if_neg]
  simp [normalBody]

theorem decodeResponse_exceptionFrame (u f : Byte) :
    decodeResponse (exceptionFrame u f excIllegalFunction) = .ok (.rspExcIllegalFunction u (f.setWidth 7)) := by
  have h7 : (f ||| excFlag).getLsbD 7 = true := by simp [excFlag]
  have hs : (f ||| excFlag).setWidth 7 = f.setWidth 7 :=
    (by decide : ∀ f : Byte, (f ||| excFlag).setWidth 7 = f.setWidth 7) f
  have e : exceptionFrame u f excIllegalFunction = u :: (f ||| excFlag) :: excIllegalFunction ::
      crcWire (exceptionBody u f excIllegalFunction) := rfl
  rw [e, decodeResponse, if_pos h7]
  simp [hs, exceptionBody]

theorem decodeResponse_illegalDataValue (u : Byte) :
    decodeResponse (exceptionFrame u fnReadInput excIllegalDataValue) = .ok (.rspExcIllegalDataValue u) := by
  have h7 : (fnReadInput ||| excFlag).getLsbD 7 = true := by decide
  have e : exceptionFrame u fnReadInput excIllegalDataValue = u :: (fnReadInput ||| excFlag) :: excIllegalDataValue ::
      crcWire (exceptionBody u fnReadInput excIllegalDataValue) := rfl
  have hne : excIllegalDataValue ≠ excIllegalFunction := by decide
  rw [e, decodeResponse, if_pos h7]
  simp [exceptionBody, hne]

/-- The reader accepts only the three response rows, a normal one with at most 126 registers. -/
theorem decodeResponse_cases {bs : List Byte} {i : Instr} (h : decodeResponse bs = .ok i) :
    (∃ u regs, i = .rspNormal u regs ∧ regs.length ≤ 126 ∧ bs = normalFrame u fnReadInput regs) ∨
    (∃ u f7, i = .rspExcIllegalFunction u f7 ∧ bs = exceptionFrame u (f7.setWidth 8) excIllegalFunction) ∨
    (∃ u, i = .rspExcIllegalDataValue u ∧ bs = exceptionFrame u fnReadInput excIllegalDataValue) := by
  unfold decodeResponse at h
  split at h
  · rename_i u f x rest
    split at h
    · rename_i h7
      have hf : (f.setWidth 7).setWidth 8 ||| excFlag = f :=
        (by decide : ∀ f : Byte, f.getLsbD 7 = true → (f.setWidth 7).setWidth 8 ||| excFlag = f) f h7
      split at h
      · cases h
      · split at h
        · cases h
        · rename_i hc
          rw [not_not] at hc
          split at h
          · rename_i hx
            cases h
            refine .inr (.inl ⟨u, f.setWidth 7, rfl, ?_⟩)
            simp only [exceptionFrame, exceptionBody, hf, ← hx, hc]
            rfl
          · split at h
            · rename_i hx
              split at h
              · rename_i hff
                cases h
                refine .inr (.inr ⟨u, rfl, ?_⟩)
                simp only [exceptionFrame, exceptionBody, ← hx, hc, hff]
                rfl
              · cases h
            · cases h
    · split at h
      · cases h
      · rename_i hff
        rw [not_not] at hff
        split at h
        · cases h
        · rename_i hx
          split at h
          · cases h
          · rename_i hl
            split at h
            · cases h
            · rename_i hc
              rw [not_not] at hl hc
              simp only [not_or, not_not, not_lt, maxRegs] at hx
              cases h
              have ht : (rest.take x.toNat).length = 2 * (x.toNat / 2) := by
                rw [List.length_take, hl]; omega
              have hr := regsOfBytes_length _ _ ht
              refine .inl ⟨u, _, rfl, by omega, ?_⟩
              have hx2 : BitVec.ofNat 8 (2 * (x.toNat / 2)) = x := by
                rw [show 2 * (x.toNat / 2) = x.toNat by omega]; simp
              have hb : normalBody u fnReadInput (regsOfBytes (rest.take x.toNat)) = u :: f :: x :: rest.take x.toNat := by
                simp only [normalBody, hr, hx2, bytesOfRegs_regsOfBytes _ _ ht, hff]
                rfl
              rw [normalFrame, hb, ← hc]
              simp
  · cases h

end Sys2Proof
end

