-- ==== Sys2Proof/Laws/State.lean ====
section
/-! SUPPORT. What the small updates of Machine/Ops.lean do to each field of the state: one lemma per field per update. -/

namespace Sys2Proof.Machine

@[simp] theorem setResult_buf (v : Result) (s : State) : (setResult v s).buf = s.buf := rfl
@[simp] theorem setResult_bp (v : Result) (s : State) : (setResult v s).bp = s.bp := rfl
@[simp] theorem setResult_crc (v : Result) (s : State) : (setResult v s).crc = s.crc := rfl
@[simp] theorem setResult_req (v : Result) (s : State) : (setResult v s).req = s.req := rfl
@[simp] theorem setResult_regs (v : Result) (s : State) : (setResult v s).regs = s.regs := rfl
@[simp] theorem setResult_offset (v : Result) (s : State) : (setResult v s).offset = s.offset := rfl
@[simp] theorem setResult_resp (v : Result) (s : State) : (setResult v s).resp = s.resp := rfl
@[simp] theorem setResult_deadline (v : Result) (s : State) : (setResult v s).deadline = s.deadline := rfl
@[simp] theorem setResult_fsm (v : Result) (s : State) : (setResult v s).fsm = s.fsm := rfl
@[simp] theorem setResult_stats (v : Result) (s : State) : (setResult v s).stats = s.stats := rfl
@[simp] theorem setResult_total (v : Result) (s : State) : (setResult v s).total = s.total := rfl
@[simp] theorem setResult_cfgUnitId (v : Result) (s : State) : (setResult v s).cfgUnitId = s.cfgUnitId := rfl
@[simp] theorem setResult_cfgSilence (v : Result) (s : State) : (setResult v s).cfgSilence = s.cfgSilence := rfl
@[simp] theorem setResult_cfg (v : Result) (s : State) : (setResult v s).cfg = s.cfg := rfl
@[simp] theorem setResult_now (v : Result) (s : State) : (setResult v s).now = s.now := rfl
@[simp] theorem setResult_rx (v : Result) (s : State) : (setResult v s).rx = s.rx := rfl
@[simp] theorem setResult_pending (v : Result) (s : State) : (setResult v s).pending = s.pending := rfl
@[simp] theorem setResult_running (v : Result) (s : State) : (setResult v s).running = s.running := rfl
@[simp] theorem setResult_world (v : Result) (s : State) : (setResult v s).world = s.world := rfl
@[simp] theorem setResult_oracle (v : Result) (s : State) : (setResult v s).oracle = s.oracle := rfl
@[simp] theorem setResult_draws (v : Result) (s : State) : (setResult v s).draws = s.draws := rfl
@[simp] theorem setResult_trace (v : Result) (s : State) : (setResult v s).trace = s.trace := rfl
@[simp] theorem setResult_ret (v : Result) (s : State) : (setResult v s).ret = v := rfl

@[simp] theorem receive_buf (bs : List Byte) (s : State) : (receive bs s).buf = s.buf := rfl
@[simp] theorem receive_bp (bs : List Byte) (s : State) : (receive bs s).bp = s.bp := rfl
@[simp] theorem receive_crc (bs : List Byte) (s : State) : (receive bs s).crc = s.crc := rfl
@[simp] theorem receive_req (bs : List Byte) (s : State) : (receive bs s).req = s.req := rfl
@[simp] theorem receive_regs (bs : List Byte) (s : State) : (receive bs s).regs = s.regs := rfl
@[simp] theorem receive_offset (bs : List Byte) (s : State) : (receive bs s).offset = s.offset := rfl
@[simp] theorem receive_resp (bs : List Byte) (s : State) : (receive bs s).resp = s.resp := rfl
@[simp] theorem receive_deadline (bs : List Byte) (s : State) : (receive bs s).deadline = s.deadline := rfl
@[simp] theorem receive_fsm (bs : List Byte) (s : State) : (receive bs s).fsm = s.fsm := rfl
@[simp] theorem receive_stats (bs : List Byte) (s : State) : (receive bs s).stats = s.stats := rfl
@[simp] theorem receive_total (bs : List Byte) (s : State) : (receive bs s).total = s.total := rfl
@[simp] theorem receive_cfgUnitId (bs : List Byte) (s : State) : (receive bs s).cfgUnitId = s.cfgUnitId := rfl
@[simp] theorem receive_cfgSilence (bs : List Byte) (s : State) : (receive bs s).cfgSilence = s.cfgSilence := rfl
@[simp] theorem receive_cfg (bs : List Byte) (s : State) : (receive bs s).cfg = s.cfg := rfl
@[simp] theorem receive_now (bs : List Byte) (s : State) : (receive bs s).now = s.now := rfl
@[simp] theorem receive_rx (bs : List Byte) (s : State) : (receive bs s).rx = s.rx ++ bs := rfl
@[simp] theorem receive_pending (bs : List Byte) (s : State) : (receive bs s).pending = s.pending := rfl
@[simp] theorem receive_running (bs : List Byte) (s : State) : (receive bs s).running = s.running := rfl
@[simp] theorem receive_world (bs : List Byte) (s : State) : (receive bs s).world = s.world := rfl
@[simp] theorem receive_oracle (bs : List Byte) (s : State) : (receive bs s).oracle = s.oracle := rfl
@[simp] theorem receive_draws (bs : List Byte) (s : State) : (receive bs s).draws = s.draws := rfl
@[simp] theorem receive_trace (bs : List Byte) (s : State) : (receive bs s).trace = s.trace := rfl
@[simp] theorem receive_ret (bs : List Byte) (s : State) : (receive bs s).ret = s.ret := rfl

@[simp] theorem record_buf (e : Event) (s : State) : (record e s).buf = s.buf := rfl
@[simp] theorem record_bp (e : Event) (s : State) : (record e s).bp = s.bp := rfl
@[simp] theorem record_crc (e : Event) (s : State) : (record e s).crc = s.crc := rfl
@[simp] theorem record_req (e : Event) (s : State) : (record e s).req = s.req := rfl
@[simp] theorem record_regs (e : Event) (s : State) : (record e s).regs = s.regs := rfl
@[simp] theorem record_offset (e : Event) (s : State) : (record e s).offset = s.offset := rfl
@[simp] theorem record_resp (e : Event) (s : State) : (record e s).resp = s.resp := rfl
@[simp] theorem record_deadline (e : Event) (s : State) : (record e s).deadline = s.deadline := rfl
@[simp] theorem record_fsm (e : Event) (s : State) : (record e s).fsm = s.fsm := rfl
@[simp] theorem record_stats (e : Event) (s : State) : (record e s).stats = s.stats := rfl
@[simp] theorem record_total (e : Event) (s : State) : (record e s).total = s.total := rfl
@[simp] theorem record_cfgUnitId (e : Event) (s : State) : (record e s).cfgUnitId = s.cfgUnitId := rfl
@[simp] theorem record_cfgSilence (e : Event) (s : State) : (record e s).cfgSilence = s.cfgSilence := rfl
@[simp] theorem record_cfg (e : Event) (s : State) : (record e s).cfg = s.cfg := rfl
@[simp] theorem record_now (e : Event) (s : State) : (record e s).now = s.now := rfl
@[simp] theorem record_rx (e : Event) (s : State) : (record e s).rx = s.rx := rfl
@[simp] theorem record_pending (e : Event) (s : State) : (record e s).pending = s.pending := rfl
@[simp] theorem record_running (e : Event) (s : State) : (record e s).running = s.running := rfl
@[simp] theorem record_world (e : Event) (s : State) : (record e s).world = s.world := rfl
@[simp] theorem record_oracle (e : Event) (s : State) : (record e s).oracle = s.oracle := rfl
@[simp] theorem record_draws (e : Event) (s : State) : (record e s).draws = s.draws := rfl
@[simp] theorem record_trace (e : Event) (s : State) : (record e s).trace = s.trace ++ [e] := rfl
@[simp] theorem record_ret (e : Event) (s : State) : (record e s).ret = s.ret := rfl

@[simp] theorem markSilence_buf (n : Nat) (s : State) : (markSilence n s).buf = s.buf := rfl
@[simp] theorem markSilence_bp (n : Nat) (s : State) : (markSilence n s).bp = s.bp := rfl
@[simp] theorem markSilence_crc (n : Nat) (s : State) : (markSilence n s).crc = s.crc := rfl
@[simp] theorem markSilence_req (n : Nat) (s : State) : (markSilence n s).req = s.req := rfl
@[simp] theorem markSilence_regs (n : Nat) (s : State) : (markSilence n s).regs = s.regs := rfl
@[simp] theorem markSilence_offset (n : Nat) (s : State) : (markSilence n s).offset = s.offset := rfl
@[simp] theorem markSilence_resp (n : Nat) (s : State) : (markSilence n s).resp = s.resp := rfl
@[simp] theorem markSilence_deadline (n : Nat) (s : State) : (markSilence n s).deadline = n + s.cfgSilence := rfl
@[simp] theorem markSilence_fsm (n : Nat) (s : State) : (markSilence n s).fsm = s.fsm := rfl
@[simp] theorem markSilence_stats (n : Nat) (s : State) : (markSilence n s).stats = s.stats := rfl
@[simp] theorem markSilence_total (n : Nat) (s : State) : (markSilence n s).total = s.total := rfl
@[simp] theorem markSilence_cfgUnitId (n : Nat) (s : State) : (markSilence n s).cfgUnitId = s.cfgUnitId := rfl
@[simp] theorem markSilence_cfgSilence (n : Nat) (s : State) : (markSilence n s).cfgSilence = s.cfgSilence := rfl
@[simp] theorem markSilence_cfg (n : Nat) (s : State) : (markSilence n s).cfg = s.cfg := rfl
@[simp] theorem markSilence_now (n : Nat) (s : State) : (markSilence n s).now = s.now := rfl
@[simp] theorem markSilence_rx (n : Nat) (s : State) : (markSilence n s).rx = s.rx := rfl
@[simp] theorem markSilence_pending (n : Nat) (s : State) : (markSilence n s).pending = s.pending := rfl
@[simp] theorem markSilence_running (n : Nat) (s : State) : (markSilence n s).running = s.running := rfl
@[simp] theorem markSilence_world (n : Nat) (s : State) : (markSilence n s).world = s.world := rfl
@[simp] theorem markSilence_oracle (n : Nat) (s : State) : (markSilence n s).oracle = s.oracle := rfl
@[simp] theorem markSilence_draws (n : Nat) (s : State) : (markSilence n s).draws = s.draws := rfl
@[simp] theorem markSilence_trace (n : Nat) (s : State) : (markSilence n s).trace = s.trace := rfl
@[simp] theorem markSilence_ret (n : Nat) (s : State) : (markSilence n s).ret = s.ret := rfl

@[simp] theorem flush_buf (s : State) : (flush s).buf = [] := rfl
@[simp] theorem flush_bp (s : State) : (flush s).bp = 0 := rfl
@[simp] theorem flush_crc (s : State) : (flush s).crc = s.crc := rfl
@[simp] theorem flush_req (s : State) : (flush s).req = s.req := rfl
@[simp] theorem flush_regs (s : State) : (flush s).regs = s.regs := rfl
@[simp] theorem flush_offset (s : State) : (flush s).offset = s.offset := rfl
@[simp] theorem flush_resp (s : State) : (flush s).resp = s.resp := rfl
@[simp] theorem flush_deadline (s : State) : (flush s).deadline = s.deadline := rfl
@[simp] theorem flush_fsm (s : State) : (flush s).fsm = s.fsm := rfl
@[simp] theorem flush_stats (s : State) : (flush s).stats = s.stats := rfl
@[simp] theorem flush_total (s : State) : (flush s).total = s.total := rfl
@[simp] theorem flush_cfgUnitId (s : State) : (flush s).cfgUnitId = s.cfgUnitId := rfl
@[simp] theorem flush_cfgSilence (s : State) : (flush s).cfgSilence = s.cfgSilence := rfl
@[simp] theorem flush_cfg (s : State) : (flush s).cfg = s.cfg := rfl
@[simp] theorem flush_now (s : State) : (flush s).now = s.now := rfl
@[simp] theorem flush_rx (s : State) : (flush s).rx = s.rx := rfl
@[simp] theorem flush_pending (s : State) : (flush s).pending = s.pending := rfl
@[simp] theorem flush_running (s : State) : (flush s).running = s.running := rfl
@[simp] theorem flush_world (s : State) : (flush s).world = s.world := rfl
@[simp] theorem flush_oracle (s : State) : (flush s).oracle = s.oracle := rfl
@[simp] theorem flush_draws (s : State) : (flush s).draws = s.draws := rfl
@[simp] theorem flush_trace (s : State) : (flush s).trace = s.trace := rfl
@[simp] theorem flush_ret (s : State) : (flush s).ret = s.ret := rfl

@[simp] theorem latchRequest_buf (r : Request) (s : State) : (latchRequest r s).buf = s.buf := rfl
@[simp] theorem latchRequest_bp (r : Request) (s : State) : (latchRequest r s).bp = s.bp := rfl
@[simp] theorem latchRequest_crc (r : Request) (s : State) : (latchRequest r s).crc = s.crc := rfl
@[simp] theorem latchRequest_req (r : Request) (s : State) : (latchRequest r s).req = some r := rfl
@[simp] theorem latchRequest_regs (r : Request) (s : State) : (latchRequest r s).regs = s.regs := rfl
@[simp] theorem latchRequest_offset (r : Request) (s : State) : (latchRequest r s).offset = s.offset := rfl
@[simp] theorem latchRequest_resp (r : Request) (s : State) : (latchRequest r s).resp = s.resp := rfl
@[simp] theorem latchRequest_deadline (r : Request) (s : State) : (latchRequest r s).deadline = s.deadline := rfl
@[simp] theorem latchRequest_fsm (r : Request) (s : State) : (latchRequest r s).fsm = .dispatching := rfl
@[simp] theorem latchRequest_stats (r : Request) (s : State) : (latchRequest r s).stats = s.stats := rfl
@[simp] theorem latchRequest_total (r : Request) (s : State) : (latchRequest r s).total = s.total := rfl
@[simp] theorem latchRequest_cfgUnitId (r : Request) (s : State) : (latchRequest r s).cfgUnitId = s.cfgUnitId := rfl
@[simp] theorem latchRequest_cfgSilence (r : Request) (s : State) : (latchRequest r s).cfgSilence = s.cfgSilence := rfl
@[simp] theorem latchRequest_cfg (r : Request) (s : State) : (latchRequest r s).cfg = s.cfg := rfl
@[simp] theorem latchRequest_now (r : Request) (s : State) : (latchRequest r s).now = s.now := rfl
@[simp] theorem latchRequest_rx (r : Request) (s : State) : (latchRequest r s).rx = s.rx := rfl
@[simp] theorem latchRequest_pending (r : Request) (s : State) : (latchRequest r s).pending = s.pending := rfl
@[simp] theorem latchRequest_running (r : Request) (s : State) : (latchRequest r s).running = s.running := rfl
@[simp] theorem latchRequest_world (r : Request) (s : State) : (latchRequest r s).world = s.world := rfl
@[simp] theorem latchRequest_oracle (r : Request) (s : State) : (latchRequest r s).oracle = s.oracle := rfl
@[simp] theorem latchRequest_draws (r : Request) (s : State) : (latchRequest r s).draws = s.draws := rfl
@[simp] theorem latchRequest_trace (r : Request) (s : State) : (latchRequest r s).trace = s.trace := rfl
@[simp] theorem latchRequest_ret (r : Request) (s : State) : (latchRequest r s).ret = s.ret := rfl

@[simp] theorem countRequest_buf (r : Request) (s : State) : (countRequest r s).buf = s.buf := rfl
@[simp] theorem countRequest_bp (r : Request) (s : State) : (countRequest r s).bp = s.bp := rfl
@[simp] theorem countRequest_crc (r : Request) (s : State) : (countRequest r s).crc = s.crc := rfl
@[simp] theorem countRequest_req (r : Request) (s : State) : (countRequest r s).req = s.req := rfl
@[simp] theorem countRequest_regs (r : Request) (s : State) : (countRequest r s).regs = s.regs := rfl
@[simp] theorem countRequest_offset (r : Request) (s : State) : (countRequest r s).offset = s.offset := rfl
@[simp] theorem countRequest_resp (r : Request) (s : State) : (countRequest r s).resp = s.resp := rfl
@[simp] theorem countRequest_deadline (r : Request) (s : State) : (countRequest r s).deadline = s.deadline := rfl
@[simp] theorem countRequest_fsm (r : Request) (s : State) : (countRequest r s).fsm = s.fsm := rfl
@[simp] theorem countRequest_stats (r : Request) (s : State) : (countRequest r s).stats = bumpStats (signatureOf r) s.stats := rfl
@[simp] theorem countRequest_total (r : Request) (s : State) : (countRequest r s).total = s.total + 1 := rfl
@[simp] theorem countRequest_cfgUnitId (r : Request) (s : State) : (countRequest r s).cfgUnitId = s.cfgUnitId := rfl
@[simp] theorem countRequest_cfgSilence (r : Request) (s : State) : (countRequest r s).cfgSilence = s.cfgSilence := rfl
@[simp] theorem countRequest_cfg (r : Request) (s : State) : (countRequest r s).cfg = s.cfg := rfl
@[simp] theorem countRequest_now (r : Request) (s : State) : (countRequest r s).now = s.now := rfl
@[simp] theorem countRequest_rx (r : Request) (s : State) : (countRequest r s).rx = s.rx := rfl
@[simp] theorem countRequest_pending (r : Request) (s : State) : (countRequest r s).pending = s.pending := rfl
@[simp] theorem countRequest_running (r : Request) (s : State) : (countRequest r s).running = s.running := rfl
@[simp] theorem countRequest_world (r : Request) (s : State) : (countRequest r s).world = s.world := rfl
@[simp] theorem countRequest_oracle (r : Request) (s : State) : (countRequest r s).oracle = s.oracle := rfl
@[simp] theorem countRequest_draws (r : Request) (s : State) : (countRequest r s).draws = s.draws := rfl
@[simp] theorem countRequest_trace (r : Request) (s : State) : (countRequest r s).trace = s.trace := rfl
@[simp] theorem countRequest_ret (r : Request) (s : State) : (countRequest r s).ret = s.ret := rfl

/-! ### The return from a request leaves everything but the latch, the queue and the engine's state -/

theorem nextRequest_nil {s : State} (h : s.pending = []) : nextRequest s = { s with req := none, fsm := .idle } := by
  simp only [nextRequest, h]

theorem nextRequest_cons {s : State} {r : Request} {rs : List Request} (h : s.pending = r :: rs) :
    nextRequest s = { s with req := some r, pending := rs, fsm := .dispatching } := by
  simp only [nextRequest, h]

/-- Which of the two the return does. -/
theorem nextRequest_cases (s : State) :
    (s.pending = [] ∧ nextRequest s = { s with req := none, fsm := .idle }) ∨
    ∃ r rs, s.pending = r :: rs ∧ nextRequest s = { s with req := some r, pending := rs, fsm := .dispatching } := by
  rcases h : s.pending with _ | ⟨r, rs⟩
  · exact .inl ⟨rfl, h ▸ nextRequest_nil h⟩
  · exact .inr ⟨r, rs, rfl, nextRequest_cons h⟩

end Sys2Proof.Machine
end

