-- ==== Sys2Proof/Laws/Ops.lean ====
section
/-! SUPPORT. One lemma per shared operation of Machine/Ops.lean that says everything it can do. -/

namespace Sys2Proof.Machine

/-! ### The answers of the outside world -/

theorem drawAvail_spec (s : State) : ∃ o n, (drawAvail s).2 = { s with oracle := o, draws := n } := by
  unfold drawAvail; split
  · exact ⟨_, s.draws, rfl⟩
  · exact ⟨s.oracle, _, rfl⟩

theorem drawRead_spec (s : State) : ∃ o n, (drawRead s).2 = { s with oracle := o, draws := n } := by
  unfold drawRead; split
  · exact ⟨_, s.draws, rfl⟩
  · exact ⟨s.oracle, _, rfl⟩

theorem drawGate_spec (s : State) : ∃ o n, (drawGate s).2 = { s with oracle := o, draws := n } := by
  unfold drawGate; split
  · exact ⟨_, s.draws, rfl⟩
  · exact ⟨s.oracle, _, rfl⟩

theorem drawWrite_spec (s : State) : ∃ o n, (drawWrite s).2 = { s with oracle := o, draws := n } := by
  unfold drawWrite; split
  · exact ⟨_, s.draws, rfl⟩
  · exact ⟨s.oracle, _, rfl⟩

theorem drawReading_spec (s : State) : ∃ o n, (drawReading s).2 = { s with oracle := o, draws := n } := by
  unfold drawReading; split
  · exact ⟨_, s.draws, rfl⟩
  · exact ⟨s.oracle, _, rfl⟩

/-! ### The transport's receive side -/

/-- A read takes a front part of the queue and no byte is lost; a failed call may leave any queue (R65). -/
theorem readChunk_spec (s : State) : ∃ o n rx c, readChunk s =
    (c, { s with running := true, oracle := o, draws := n, rx := rx }) ∧ ∀ bs, c = some bs → s.rx = bs ++ rx := by
  unfold readChunk trAvail
  obtain ⟨o, n, h⟩ := drawAvail_spec { s with running := true }
  cases ha : drawAvail { s with running := true } with
  | mk a t =>
    rw [ha] at h
    simp only at h
    subst h
    cases a with
    | fail => exact ⟨o, n, s.rx, none, rfl, by simp⟩
    | ok =>
      simp only
      unfold trRead
      obtain ⟨o', n', h'⟩ := drawRead_spec { s with running := true, oracle := o, draws := n }
      cases hb : drawRead { s with running := true, oracle := o, draws := n } with
      | mk b u =>
        rw [hb] at h'
        simp only at h'
        subst h'
        cases b with
        | fail left => exact ⟨o', n', left, none, rfl, by simp⟩
        | bytes k =>
          refine ⟨o', n', _, _, rfl, ?_⟩
          intro bs hbs
          simp only [Option.some.injEq] at hbs
          subst hbs
          exact (List.take_append_drop _ _).symm

/-! ### The silence timer -/

/-- R188: the gate returns at a time not before the deadline nor the call, and only the transport's queue grows. -/
theorem silenceGate_spec (s : State) : ∃ o n late arrived, silenceGate s =
    { s with oracle := o, draws := n, now := max s.now s.deadline + late, rx := s.rx ++ arrived } := by
  obtain ⟨o, n, h⟩ := drawGate_spec s
  refine ⟨o, n, (drawGate s).1.late, (drawGate s).1.arrived, ?_⟩
  simp only [silenceGate, receive, h]

/-- R210: everything `ENG.SEND` can do. One write, which starts at a time the gate allows, is recorded and marked. -/
theorem send_spec (resp : List Byte) (s : State) : ∃ o n arrived start fin,
    max s.now s.deadline ≤ start ∧ start ≤ fin ∧
    (send resp s = (true, { s with
        oracle := o, draws := n, now := fin, rx := s.rx ++ arrived, resp := [],
        trace := s.trace ++ [.tx resp start fin], deadline := fin + s.cfgSilence }) ∨
     ∃ gone, gone ≤ resp.length ∧
      send resp s = (false, { s with
        oracle := o, draws := n, now := fin, rx := s.rx ++ arrived,
        trace := s.trace ++ [.txFailed resp gone start fin], deadline := fin + s.cfgSilence })) := by
  obtain ⟨o, n, late, arrived, hg⟩ := silenceGate_spec s
  unfold send
  rw [hg]
  generalize hs : ({ s with oracle := o, draws := n, now := max s.now s.deadline + late, rx := s.rx ++ arrived } : State) = g
  obtain ⟨o', n', hw⟩ := drawWrite_spec g
  cases hd : drawWrite g with
  | mk w t =>
    rw [hd] at hw
    simp only at hw
    subst hw hs
    cases w with
    | ok ticks arr =>
      refine ⟨o', n', arrived ++ arr, max s.now s.deadline + late, max s.now s.deadline + late + ticks,
        by omega, by omega, .inl ?_⟩
      simp only [hd, markSilence, record, receive, List.append_assoc]
    | fail ticks gone arr =>
      refine ⟨o', n', arrived ++ arr, max s.now s.deadline + late, max s.now s.deadline + late + ticks,
        by omega, by omega, .inr ⟨min gone resp.length, by omega, ?_⟩⟩
      simp only [hd, markSilence, record, receive, List.append_assoc]

/-- Everything that can happen to a prepared response (R201, R210, R242): written, and the return from the request; or
failed, and `ENG.XFAIL`. -/
theorem respond_spec (resp : List Byte) (s : State) : ∃ o n arrived start fin,
    max s.now s.deadline ≤ start ∧ start ≤ fin ∧
    (respond resp s = nextRequest { s with
        oracle := o, draws := n, now := fin, rx := s.rx ++ arrived, resp := [],
        trace := s.trace ++ [.tx resp start fin], deadline := fin + s.cfgSilence } ∨
     ∃ gone, gone ≤ resp.length ∧
      respond resp s = transportFailure { s with
        oracle := o, draws := n, now := fin, rx := s.rx ++ arrived,
        trace := s.trace ++ [.txFailed resp gone start fin], deadline := fin + s.cfgSilence }) := by
  obtain ⟨o, n, arrived, start, fin, h1, h2, h⟩ := send_spec resp s
  refine ⟨o, n, arrived, start, fin, h1, h2, ?_⟩
  unfold respond
  rcases h with h | ⟨gone, hg, h⟩
  · exact .inl (by rw [h])
  · exact .inr ⟨gone, hg, by rw [h]⟩

/-! ### The assembly loop -/

theorem packedRegs_length (v : Option Long) : (packedRegs v).length = 1 ∨ (packedRegs v).length = 2 := by
  cases v <;> simp [packedRegs, regsOfLong]

theorem rvsRead_spec (address offset : Word) (s : State) : ∃ o n v, rvsRead address offset s =
    (v, { s with oracle := o, draws := n, trace := s.trace ++ [.call address offset] }) ∧
    (v = none ↔ address.toNat + offset.toNat ∉ s.cfg.known) := by
  unfold rvsRead
  by_cases h : address.toNat + offset.toNat ∈ s.cfg.known
  · obtain ⟨o, n, hr⟩ := drawReading_spec (record (.call address offset) s)
    refine ⟨o, n, some (drawReading (record (.call address offset) s)).1, ?_, by simp [h]⟩
    refine (if_pos (show address.toNat + offset.toNat ∈ (record (.call address offset) s).cfg.known from h)).trans ?_
    rw [hr]
    rfl
  · refine ⟨s.oracle, s.draws, none, ?_, by simp [h]⟩
    exact if_neg (show ¬ address.toNat + offset.toNat ∈ (record (.call address offset) s).cfg.known from h)

/-- One iteration of the assembly loop: one recorded call, its one or two registers appended, the offset moved on. -/
theorem assembleOnce_spec (address : Word) (s : State) : ∃ o n v, assembleOnce address s =
    { s with oracle := o, draws := n, trace := s.trace ++ [.call address s.offset],
             regs := s.regs ++ packedRegs v, offset := s.offset + BitVec.ofNat 16 (packedRegs v).length } ∧
    (v = none ↔ address.toNat + s.offset.toNat ∉ s.cfg.known) := by
  obtain ⟨o, n, v, h, hv⟩ := rvsRead_spec address s.offset s
  refine ⟨o, n, v, ?_, hv⟩
  simp only [assembleOnce, rvsPack, h]

/-- The assembly loop: calls only are recorded, and the offset ends as the number of registers, at `count` or one past it. -/
theorem assembleLoop_spec (address count : Word) (hc : count ≤ maxCount) (k : Nat) : ∀ s : State,
    s.offset.toNat = s.regs.length → s.offset.toNat ≤ count.toNat + 1 → count.toNat ≤ k + s.offset.toNat →
    ∃ o n regs off calls, assembleLoop k address count s =
      { s with oracle := o, draws := n, trace := s.trace ++ calls, regs := regs, offset := off } ∧
      spans calls = [] ∧ off.toNat = regs.length ∧ count.toNat ≤ regs.length ∧ regs.length ≤ count.toNat + 1 := by
  have hc' : count.toNat ≤ 125 := by simpa [maxCount, BitVec.le_def] using hc
  induction k with
  | zero =>
    intro s h1 h2 h3
    exact ⟨s.oracle, s.draws, s.regs, s.offset, [], by simp [assembleLoop], rfl, h1, by omega, by omega⟩
  | succ k ih =>
    intro s h1 h2 h3
    unfold assembleLoop
    by_cases hm : more count s = true
    · rw [if_pos hm]
      have hlt : s.offset.toNat < count.toNat := by simpa [more, BitVec.lt_def] using hm
      obtain ⟨o, n, v, h, _⟩ := assembleOnce_spec address s
      have hl := packedRegs_length v
      have ho : (s.offset + BitVec.ofNat 16 (packedRegs v).length).toNat = s.offset.toNat + (packedRegs v).length := by
        rw [BitVec.toNat_add, BitVec.toNat_ofNat]
        rcases hl with hl | hl <;> rw [hl] <;> omega
      rw [h]
      obtain ⟨o', n', regs, off, calls, e, hs, h4, h5, h6⟩ := ih
        { s with oracle := o, draws := n, trace := s.trace ++ [.call address s.offset],
                 regs := s.regs ++ packedRegs v, offset := s.offset + BitVec.ofNat 16 (packedRegs v).length }
        (by simp only [ho, List.length_append]; omega)
        (by simp only [ho]; omega) (by simp only [ho]; omega)
      refine ⟨o', n', regs, off, .call address s.offset :: calls, ?_, ?_, h4, h5, h6⟩
      · rw [e]; simp
      · simpa [spans, Event.span] using hs
    · rw [if_neg hm]
      have hge : count.toNat ≤ s.offset.toNat := by simpa [more, BitVec.lt_def] using hm
      exact ⟨s.oracle, s.draws, s.regs, s.offset, [], by simp, rfl, h1, by omega, by omega⟩

/-- R155, R156: the RegisterBlock holds `count` or `count + 1` registers, and nothing but the value source was used. -/
theorem assemble_spec (address count : Word) (hc : count ≤ maxCount) (s : State) : ∃ o n regs off calls,
    assemble address count s = { s with oracle := o, draws := n, trace := s.trace ++ calls, regs := regs, offset := off } ∧
      spans calls = [] ∧ off.toNat = regs.length ∧ count.toNat ≤ regs.length ∧ regs.length ≤ count.toNat + 1 := by
  obtain ⟨o, n, regs, off, calls, e, h⟩ := assembleLoop_spec address count hc count.toNat
    { s with regs := [], offset := 0 } rfl (by simp) (by simp)
  exact ⟨o, n, regs, off, calls, by rw [assemble, e], h⟩

/-- The same for any count, the sizes aside. -/
theorem assembleLoop_frame (address count : Word) (k : Nat) : ∀ s : State, ∃ o n regs off calls,
    assembleLoop k address count s =
      { s with oracle := o, draws := n, trace := s.trace ++ calls, regs := regs, offset := off } ∧ spans calls = [] := by
  induction k with
  | zero => intro s; exact ⟨s.oracle, s.draws, s.regs, s.offset, [], by simp [assembleLoop], rfl⟩
  | succ k ih =>
    intro s
    unfold assembleLoop
    by_cases hm : more count s = true
    · rw [if_pos hm]
      obtain ⟨o, n, v, h, _⟩ := assembleOnce_spec address s
      rw [h]
      obtain ⟨o', n', regs, off, calls, e, hs⟩ := ih
        { s with oracle := o, draws := n, trace := s.trace ++ [.call address s.offset],
                 regs := s.regs ++ packedRegs v, offset := s.offset + BitVec.ofNat 16 (packedRegs v).length }
      refine ⟨o', n', regs, off, .call address s.offset :: calls, ?_, ?_⟩
      · rw [e]; simp
      · simpa [spans, Event.span] using hs
    · rw [if_neg hm]
      exact ⟨s.oracle, s.draws, s.regs, s.offset, [], by simp, rfl⟩

theorem assemble_frame (address count : Word) (s : State) : ∃ o n regs off calls,
    assemble address count s = { s with oracle := o, draws := n, trace := s.trace ++ calls, regs := regs, offset := off } ∧
      spans calls = [] := by
  obtain ⟨o, n, regs, off, calls, e, h⟩ := assembleLoop_frame address count count.toNat { s with regs := [], offset := 0 }
  exact ⟨o, n, regs, off, calls, by rw [assemble, e], h⟩

/-! ### PacketStats -/

/-- A concatenation determines its two parts. -/
theorem append_injective {n m : Nat} {x x' : BitVec n} {y y' : BitVec m} (h : x ++ y = x' ++ y') : x = x' ∧ y = y' := by
  have g := fun i => congrArg (fun v => v.getLsbD i) h
  simp only [BitVec.getLsbD_append] at g
  constructor
  · apply BitVec.eq_of_getLsbD_eq
    intro i _
    simpa using g (m + i)
  · apply BitVec.eq_of_getLsbD_eq
    intro i hi
    simpa [hi] using g i

/-- The order of the map's keys tells any two signatures apart. -/
theorem Signature.key_injective {j k : Signature} (h : j.key = k.key) : j = k := by
  obtain ⟨h1, h2⟩ := append_injective (BitVec.eq_of_toNat_eq h)
  obtain ⟨h1, h3⟩ := append_injective h1
  obtain ⟨h1, h4⟩ := append_injective h1
  cases j; cases k; simp_all

/-- R29, R205: counting a request keeps the map's canonical form, and adds no key but its signature. -/
theorem bumpStats_wf (k : Signature) : ∀ l, StatsWf l → 
    StatsWf (bumpStats k l) ∧ ∀ e ∈ bumpStats k l, e.1 = k ∨ ∃ n, (e.1, n) ∈ l
  | [], _ => by simp [bumpStats, StatsWf]
  | (j, n) :: l, h => by
    have hl : StatsWf l := ⟨h.1.of_cons, fun e he => h.2 e (List.mem_cons_of_mem _ he)⟩
    have hj := (List.pairwise_cons.mp h.1).1
    obtain ⟨ih1, ih2⟩ := bumpStats_wf k l hl
    unfold bumpStats
    by_cases hk : k = j
    · subst hk; rw [if_pos rfl]
      refine ⟨⟨List.pairwise_cons.mpr ⟨hj, hl.1⟩, ?_⟩, ?_⟩
      · intro e he; rcases List.mem_cons.mp he with rfl | he
        · simp
        · exact hl.2 e he
      · intro e he; rcases List.mem_cons.mp he with rfl | he
        · exact .inl rfl
        · exact .inr ⟨e.2, List.mem_cons_of_mem _ he⟩
    · rw [if_neg hk]
      by_cases hlt : k.key < j.key
      · rw [if_pos hlt]
        refine ⟨⟨List.pairwise_cons.mpr ⟨?_, h.1⟩, ?_⟩, ?_⟩
        · intro e he; rcases List.mem_cons.mp he with rfl | he
          · exact hlt
          · exact Nat.lt_trans hlt (hj e he)
        · intro e he; rcases List.mem_cons.mp he with rfl | he
          · simp
          · exact h.2 e he
        · intro e he; rcases List.mem_cons.mp he with rfl | he
          · exact .inl rfl
          · exact .inr ⟨e.2, he⟩
      · rw [if_neg hlt]
        have hne : j.key ≠ k.key := fun e => hk (Signature.key_injective e).symm
        refine ⟨⟨List.pairwise_cons.mpr ⟨?_, ih1.1⟩, ?_⟩, ?_⟩
        · intro e he
          rcases ih2 e he with e1 | ⟨m, hm⟩
          · simp only [e1]; omega
          · exact hj (e.1, m) hm
        · intro e he; rcases List.mem_cons.mp he with rfl | he
          · exact h.2 _ (by simp)
          · exact ih1.2 e he
        · intro e he; rcases List.mem_cons.mp he with rfl | he
          · exact .inr ⟨n, by simp⟩
          · rcases ih2 e he with e1 | ⟨m, hm⟩
            · exact .inl e1
            · exact .inr ⟨m, List.mem_cons_of_mem _ hm⟩

/-- R205: in a map of canonical form the count of `k` grows by one and every other count stays. -/
theorem statsCount_bumpStats (k j : Signature) : ∀ l, StatsWf l →
    statsCount j (bumpStats k l) = statsCount j l + if j = k then 1 else 0
  | [], _ => by by_cases h : j = k <;> simp [bumpStats, statsCount, h]
  | (i, n) :: l, h => by
    have hl : StatsWf l := ⟨h.1.of_cons, fun e he => h.2 e (List.mem_cons_of_mem _ he)⟩
    have ih := statsCount_bumpStats k j l hl
    unfold bumpStats
    by_cases hki : k = i
    · subst hki
      simp only [if_true, statsCount]
      by_cases hj : j = k <;> simp [hj]
    · rw [if_neg hki]
      by_cases hlt : k.key < i.key
      · rw [if_pos hlt]
        have habs : statsCount k ((i, n) :: l) = 0 := by
          have hnot : ∀ e ∈ (i, n) :: l, k ≠ e.1 := by
            intro e he hek
            rcases List.mem_cons.mp he with rfl | he
            · exact hki hek
            · have := List.rel_of_pairwise_cons h.1 he
              simp only [← hek] at this; omega
          have aux : ∀ m : List (Signature × Nat), (∀ e ∈ m, k ≠ e.1) → statsCount k m = 0 := by
            intro m
            induction m with
            | nil => intro; rfl
            | cons e m ih =>
              intro hm
              obtain ⟨a, b⟩ := e
              simp only [statsCount]
              rw [if_neg (hm (a, b) (by simp)), ih (fun e he => hm e (List.mem_cons_of_mem _ he))]
          exact aux _ hnot
        by_cases hj : j = k
        · subst hj; simp [statsCount] at habs ⊢; simpa [statsCount, hki] using habs
        · rw [if_neg hj]; simp [statsCount, hj]
      · rw [if_neg hlt]
        simp only [statsCount]
        by_cases hj : j = i
        · subst hj; simp [Ne.symm hki]
        · simp only [if_neg hj, ih]

end Sys2Proof.Machine
end

