-- ==== Sys2Proof/Laws/PerInstr.lean ====
section
/-! SUPPORT. The family `FrameLength`: how long the encoding of each row is (30_encoding.md R70, R82, R173). -/

namespace Sys2Proof.Laws.FrameLength

open Sys2Proof Sys2Proof.Machine

/-- R70, R82, R270: the bytes of a row are 8 for a request and an odd number, at least 5, for a response, which is so never an
8-byte window; an operation has none. -/
def Statement (i : Instr) : Prop :=
  ∀ bytes, Sys2Proof.encode i = some bytes → bytes.length = 8 ∨ (bytes.length % 2 = 1 ∧ 5 ≤ bytes.length)

theorem reqInvalid : ∀ u f a n lo hi, Statement (.reqInvalid u f a n lo hi) := fun _ _ _ _ _ _ _ h => .inl (by cases h; rfl)
theorem reqForeign : ∀ u f a n, Statement (.reqForeign u f a n) := fun _ _ _ _ _ h => .inl (by cases h; rfl)
theorem reqUnsupportedFunction : ∀ u f a n, Statement (.reqUnsupportedFunction u f a n) := fun _ _ _ _ _ h => .inl (by cases h; rfl)
theorem reqCountTooLarge : ∀ u a n, Statement (.reqCountTooLarge u a n) := fun _ _ _ _ h => .inl (by cases h; rfl)
theorem reqReadInputRegisters : ∀ u a n, Statement (.reqReadInputRegisters u a n) := fun _ _ _ _ h => .inl (by cases h; rfl)
theorem rspNormal : ∀ u regs, Statement (.rspNormal u regs) := by
  intro u regs bytes h
  cases h
  refine .inr ?_
  rw [normalFrame_length]
  omega
theorem rspExcIllegalFunction : ∀ u f7, Statement (.rspExcIllegalFunction u f7) := fun _ _ _ h => .inr (by cases h; simp)
theorem rspExcIllegalDataValue : ∀ u, Statement (.rspExcIllegalDataValue u) := fun _ _ h => .inr (by cases h; simp)
theorem crcStep : ∀ acc b, Statement (.crcStep acc b) := fun _ _ => nofun
theorem crcRaw : ∀ data, Statement (.crcRaw data) := fun _ => nofun
theorem crcCompute : ∀ data, Statement (.crcCompute data) := fun _ => nofun
theorem crcVerify : ∀ data expected, Statement (.crcVerify data expected) := fun _ _ => nofun
theorem crcTable : Statement (.crcTable) := nofun
theorem crcTstep : ∀ acc b, Statement (.crcTstep acc b) := fun _ _ => nofun
theorem asmFeed : ∀ chunk, Statement (.asmFeed chunk) := fun _ => nofun
theorem asmFlush : Statement (.asmFlush) := nofun
theorem decDecode : ∀ window, Statement (.decDecode window) := fun _ => nofun
theorem rvsPack : ∀ address offset, Statement (.rvsPack address offset) := fun _ _ => nofun
theorem engAssemble : ∀ address count, Statement (.engAssemble address count) := fun _ _ => nofun
theorem encNormal : ∀ u f regs, Statement (.encNormal u f regs) := fun _ _ _ => nofun
theorem encException : ∀ u f e, Statement (.encException u f e) := fun _ _ _ => nofun
theorem silThresh : Statement (.silThresh) := nofun
theorem silExpired : Statement (.silExpired) := nofun
theorem silGate : Statement (.silGate) := nofun
theorem silMark : ∀ tEnd, Statement (.silMark tEnd) := fun _ => nofun
theorem engPoll : Statement (.engPoll) := nofun
theorem engXfail : ∀ side, Statement (.engXfail side) := fun _ => nofun
theorem engStats : ∀ r, Statement (.engStats r) := fun _ => nofun
theorem engDispatch : ∀ r, Statement (.engDispatch r) := fun _ => nofun
theorem engSend : ∀ resp, Statement (.engSend resp) := fun _ => nofun
theorem engReset : Statement (.engReset) := nofun

end Sys2Proof.Laws.FrameLength
end

