-- ==== Sys2Proof/Laws/Scan.lean ====
section
/-! SUPPORT. Laws of the scan (41_frame_assembler.md). A scan is followed through what it has not yet tested: the byte just
before the cursor, if any, and the bytes from the cursor on. -/

namespace Sys2Proof.Machine

theorem memRead_eq_some {p n : Nat} {b w : List Byte} (h : memRead p n b = some w) :
    p + n ≤ b.length ∧ w = (b.drop p).take n := by
  unfold memRead at h
  split at h
  · cases h; exact ⟨‹_›, rfl⟩
  · cases h

theorem memRead_of_le {p n : Nat} {b : List Byte} (h : p + n ≤ b.length) : memRead p n b = some ((b.drop p).take n) :=
  if_pos h

theorem memRead_eq_none {p n : Nat} {b : List Byte} : memRead p n b = none ↔ b.length < p + n := by
  unfold memRead
  split <;> simp <;> omega

theorem memRead_length {p n : Nat} {b w : List Byte} (h : memRead p n b = some w) : w.length = n := by
  obtain ⟨h1, rfl⟩ := memRead_eq_some h
  simp; omega

/-- To see that no frame begins below `n` it is enough to try the positions. -/
theorem noFrameBelow_of {n : Nat} {x : List Byte} (h : ∀ p, p < n → decodeRequest ((x.drop p).take 8) = none) :
    NoFrameBelow n x := by
  intro p w hp hw
  rw [(memRead_eq_some hw).2]
  exact h p hp

theorem noFrame_of {x : List Byte} (h : ∀ p, p < x.length → decodeRequest ((x.drop p).take 8) = none) : NoFrame x := by
  intro p w hw
  have := (memRead_eq_some hw).1
  exact noFrameBelow_of h p w (by simp [frameLen] at this; omega) hw

/-! ### A scan by what is left of it -/

/-- The remainder of a scan: `tail` is the byte before the cursor, if any, and `rest` the bytes not yet tested. The Requests it
yields, and the bytes it retains (R125). -/
def scanRest : Nat → List Byte → List Byte → List Request × List Byte
  | 0, tail, rest => ([], tail ++ rest)
  | k + 1, tail, rest =>
    if rest.length < 8 then ([], tail ++ rest)
    else
      match decodeRequest (rest.take 8) with
      | some r => (r :: (scanRest k [] (rest.drop 8)).1, (scanRest k [] (rest.drop 8)).2)
      | none => scanRest k (rest.take 1) (rest.drop 1)

/-- The remainder of a scan, run to its end. -/
def restOf (tail rest : List Byte) : List Request × List Byte := scanRest rest.length tail rest

theorem scanRest_short {rest : List Byte} (h : rest.length < 8) (k : Nat) (tail : List Byte) :
    scanRest k tail rest = ([], tail ++ rest) := by
  cases k <;> simp [scanRest, h]

theorem scanRest_succ {rest : List Byte} (h : ¬ rest.length < 8) (k : Nat) (tail : List Byte) :
    scanRest (k + 1) tail rest = match decodeRequest (rest.take 8) with
      | some r => (r :: (scanRest k [] (rest.drop 8)).1, (scanRest k [] (rest.drop 8)).2)
      | none => scanRest k (rest.take 1) (rest.drop 1) := by
  simp only [scanRest, if_neg h]

/-- As many tests as there are bytes are enough, and more change nothing (R213). -/
theorem scanRest_enough (k : Nat) : ∀ (j : Nat) (tail rest : List Byte), rest.length ≤ k → rest.length ≤ j →
    scanRest k tail rest = scanRest j tail rest := by
  induction k with
  | zero =>
    intro j tail rest hk _
    rw [scanRest_short (by omega), scanRest_short (by omega)]
  | succ k ih =>
    intro j tail rest hk hj
    by_cases h : rest.length < 8
    · rw [scanRest_short h, scanRest_short h]
    · obtain ⟨j, rfl⟩ : ∃ i, j = i + 1 := ⟨j - 1, by omega⟩
      rw [scanRest_succ h, scanRest_succ h]
      have h8 : (rest.drop 8).length ≤ k ∧ (rest.drop 8).length ≤ j := by simp; omega
      have h1 : (rest.drop 1).length ≤ k ∧ (rest.drop 1).length ≤ j := by simp; omega
      rw [ih j _ _ h8.1 h8.2, ih j _ _ h1.1 h1.2]

theorem restOf_short {rest : List Byte} (h : rest.length < 8) (tail : List Byte) : restOf tail rest = ([], tail ++ rest) :=
  scanRest_short h _ _

/-- A frame at the cursor. -/
theorem restOf_frame {tail rest : List Byte} {r : Request} (h : decodeRequest (rest.take 8) = some r) :
    restOf tail rest = (r :: (restOf [] (rest.drop 8)).1, (restOf [] (rest.drop 8)).2) := by
  have hl : ¬ rest.length < 8 := by
    have := length_of_decodeRequest h
    simp at this; omega
  obtain ⟨m, hm⟩ : ∃ m, rest.length = m + 1 := ⟨rest.length - 1, by omega⟩
  have h8 : (rest.drop 8).length ≤ m := by simp; omega
  rw [restOf, hm, scanRest_succ hl, h]
  simp only [scanRest_enough m _ [] _ h8 (Nat.le_refl _)]
  rfl

/-- No frame at the cursor. -/
theorem restOf_noise {tail rest : List Byte} (hl : 8 ≤ rest.length) (h : decodeRequest (rest.take 8) = none) :
    restOf tail rest = restOf (rest.take 1) (rest.drop 1) := by
  obtain ⟨m, hm⟩ : ∃ m, rest.length = m + 1 := ⟨rest.length - 1, by omega⟩
  have h1 : (rest.drop 1).length ≤ m := by simp; omega
  rw [restOf, hm, scanRest_succ (by omega), h]
  exact scanRest_enough m _ _ _ h1 (Nat.le_refl _)

/-- Induction along a scan: what holds at its end, and is carried back over a frame and over a noise byte, holds. -/
theorem scan_induction {P : List Byte → List Byte → Prop}
    (short : ∀ tail rest, rest.length < 8 → P tail rest)
    (frame : ∀ tail rest r, decodeRequest (rest.take 8) = some r → P [] (rest.drop 8) → P tail rest)
    (noise : ∀ tail rest, 8 ≤ rest.length → decodeRequest (rest.take 8) = none →
      P (rest.take 1) (rest.drop 1) → P tail rest) :
    ∀ tail rest, P tail rest := by
  have key : ∀ n tail rest, rest.length ≤ n → P tail rest := by
    intro n
    induction n with
    | zero => intro tail rest h; exact short _ _ (by omega)
    | succ n ih =>
      intro tail rest h
      by_cases h8 : rest.length < 8
      · exact short _ _ h8
      · cases hd : decodeRequest (rest.take 8) with
        | some r => exact frame _ _ r hd (ih _ _ (by simp; omega))
        | none => exact noise _ _ (by omega) hd (ih _ _ (by simp; omega))
  exact fun tail rest => key _ tail rest (Nat.le_refl _)

/-- What a scan retains, followed by more bytes, is scanned like the whole stream: nothing that belongs to a window not yet
tested is cut, and the re-tested window fails again (R130). `tail` is a byte whose window failed. -/
theorem restOf_append (z : List Byte) : ∀ (tail rest : List Byte),
    (tail = [] ∨ (tail.length = 1 ∧ 7 ≤ rest.length ∧ decodeRequest (tail ++ rest.take 7) = none)) →
    restOf tail (rest ++ z) =
      ((restOf tail rest).1 ++ (restOf [] ((restOf tail rest).2 ++ z)).1, (restOf [] ((restOf tail rest).2 ++ z)).2) := by
  refine scan_induction ?_ ?_ ?_
  · intro tail rest hs ht
    rw [restOf_short hs]
    rcases ht with rfl | ⟨h1, h7, hd⟩
    · simp
    · obtain ⟨b, rfl⟩ := List.length_eq_one_iff.mp h1
      have e : ([b] ++ rest ++ z).take 8 = [b] ++ rest.take 7 := by
        have : rest.length = 7 := by omega
        simp [this]
      have hn : decodeRequest (([b] ++ rest ++ z).take 8) = none := by rw [e]; exact hd
      rw [restOf_noise (rest := [b] ++ rest ++ z) (by simp; omega) hn]
      simp
  · intro tail rest r hd ih ht
    have hl : 8 ≤ rest.length := by
      have := length_of_decodeRequest hd
      simp at this; omega
    have e : (rest ++ z).take 8 = rest.take 8 := List.take_append_of_le_length hl
    rw [restOf_frame (rest := rest ++ z) (r := r) (by rw [e]; exact hd), restOf_frame hd,
      List.drop_append_of_le_length hl, ih (.inl rfl)]
    simp
  · intro tail rest hl hd ih ht
    have e : (rest ++ z).take 8 = rest.take 8 := List.take_append_of_le_length hl
    rw [restOf_noise (rest := rest ++ z) (by simp; omega) (by rw [e]; exact hd), restOf_noise hl hd,
      List.drop_append_of_le_length (by omega), List.take_append_of_le_length (by omega)]
    refine ih (.inr ⟨by simp; omega, by simp; omega, ?_⟩)
    rw [← hd]
    congr 1
    obtain ⟨b, t, rfl⟩ : ∃ b t, rest = b :: t := by
      cases rest with
      | nil => simp at hl
      | cons b t => exact ⟨b, t, rfl⟩
    simp

/-- What a scan retains: at most 8 bytes, in which there is no frame (R131). -/
theorem restOf_retained : ∀ (tail rest : List Byte),
    (tail = [] ∨ (tail.length = 1 ∧ 7 ≤ rest.length ∧ decodeRequest (tail ++ rest.take 7) = none)) →
    (restOf tail rest).2.length ≤ 8 ∧ NoFrame (restOf tail rest).2 := by
  refine scan_induction ?_ ?_ ?_
  · intro tail rest hs ht
    rw [restOf_short hs]
    rcases ht with rfl | ⟨h1, h7, hd⟩
    · refine ⟨by simp; omega, fun p w hw => ?_⟩
      have := (memRead_eq_some hw).1
      simp [frameLen] at this; omega
    · refine ⟨by simp; omega, fun p w hw => ?_⟩
      obtain ⟨hp, rfl⟩ := memRead_eq_some hw
      have h0 : p = 0 := by simp [frameLen] at hp; omega
      subst h0
      rw [← hd]
      congr 1
      have : rest.length = 7 := by omega
      simp [frameLen, List.take_append, h1]
  · intro tail rest r hd ih ht
    rw [restOf_frame hd]; exact ih (.inl rfl)
  · intro tail rest hl hd ih ht
    rw [restOf_noise hl hd]
    refine ih (.inr ⟨by simp; omega, by simp; omega, ?_⟩)
    rw [← hd]
    congr 1
    obtain ⟨b, t, rfl⟩ : ∃ b t, rest = b :: t := by
      cases rest with
      | nil => simp at hl
      | cons b t => exact ⟨b, t, rfl⟩
    simp

/-- Every Request a scan yields is the one its raw bytes decode to (R24). -/
theorem restOf_wellFormed : ∀ (tail rest : List Byte), ∀ r ∈ (restOf tail rest).1, r.wellFormed = true := by
  refine scan_induction ?_ ?_ ?_
  · intro tail rest h; rw [restOf_short h]; simp
  · intro tail rest r hd ih
    rw [restOf_frame hd]
    intro q hq
    rcases List.mem_cons.mp hq with rfl | hq
    · exact wellFormed_of_decodeRequest hd
    · exact ih q hq
  · intro tail rest hl hd ih; rw [restOf_noise hl hd]; exact ih

/-- Each Request takes 8 bytes out of the stream (R128). -/
theorem restOf_length_le : ∀ tail rest : List Byte,
    8 * (restOf tail rest).1.length + (restOf tail rest).2.length ≤ tail.length + rest.length := by
  refine scan_induction ?_ ?_ ?_
  · intro tail rest h; rw [restOf_short h]; simp
  · intro tail rest r hd ih
    rw [restOf_frame hd]
    have := length_of_decodeRequest hd
    simp at this ih ⊢; omega
  · intro tail rest hl hd ih; rw [restOf_noise hl hd]; simp at ih ⊢; omega

/-- What a scan may retain is retained again by the next one (R125). -/
theorem restOf_of_noFrame {b : List Byte} (hl : b.length ≤ 8) (hn : NoFrame b) : restOf [] b = ([], b) := by
  by_cases h : b.length < 8
  · rw [restOf_short h]; simp
  · have hd : decodeRequest (b.take 8) = none := hn 0 _ (by rw [memRead_of_le (by simp [frameLen]; omega)]; rfl)
    rw [restOf_noise (by omega) hd, restOf_short (by simp; omega), List.take_append_drop]

/-! ### The scan loop is such a scan -/

/-- What the pass yields and retains, from a cursor before which no window is a frame. -/
theorem scanLoop_restOf (k : Nat) : ∀ c : Scan, c.buf.length ≤ k + c.bp → c.bp ≤ c.buf.length →
    (scanEnd (scanLoop k c)).out = c.out ++ (restOf ((c.buf.drop (c.bp - 1)).take (c.bp - (c.bp - 1))) (c.buf.drop c.bp)).1 ∧
    (scanEnd (scanLoop k c)).buf = (restOf ((c.buf.drop (c.bp - 1)).take (c.bp - (c.bp - 1))) (c.buf.drop c.bp)).2 := by
  induction k with
  | zero =>
    intro c h1 h2
    have hr : (c.buf.drop c.bp).length < 8 := by simp; omega
    rw [restOf_short hr]
    simp only [scanLoop, scanEnd, List.append_nil, true_and]
    have : c.buf.drop c.bp = (c.buf.drop (c.bp - 1)).drop (c.bp - (c.bp - 1)) := by
      rw [List.drop_drop]; congr 1; omega
    rw [this, List.take_append_drop]
  | succ k ih =>
    intro c h1 h2
    unfold scanLoop
    by_cases hs : c.buf.length < c.bp + 8
    · have hn : scanWindow c = none := memRead_eq_none.mpr hs
      have hr : (c.buf.drop c.bp).length < 8 := by simp; omega
      rw [restOf_short hr, hn]
      simp only [scanEnd, List.append_nil, true_and]
      have : c.buf.drop c.bp = (c.buf.drop (c.bp - 1)).drop (c.bp - (c.bp - 1)) := by
        rw [List.drop_drop]; congr 1; omega
      rw [this, List.take_append_drop]
    · have hw : scanWindow c = some ((c.buf.drop c.bp).take 8) := memRead_of_le (by simp [frameLen]; omega)
      rw [hw]
      cases hd : decodeRequest ((c.buf.drop c.bp).take 8) with
      | some r =>
        have h := ih (scanAccept r ((c.buf.drop c.bp).take 8) c) (by simp [scanAccept, frameLen]; omega) (by simp [scanAccept])
        rw [restOf_frame hd]
        simp only [hd, scanAccept, frameLen] at h ⊢
        simpa [List.drop_drop] using h
      | none =>
        have h := ih (scanReject ((c.buf.drop c.bp).take 8) c) (by simp [scanReject]; omega) (by simp [scanReject]; omega)
        rw [restOf_noise (by simp; omega) hd]
        simp only [hd, scanReject] at h ⊢
        simpa [List.drop_drop] using h

/-- The pass of a feed, from the cursor at 0. -/
theorem scanPass_restOf (c : Scan) (h : c.bp = 0) :
    (scanPass c).out = c.out ++ (restOf [] c.buf).1 ∧ (scanPass c).buf = (restOf [] c.buf).2 ∧ (scanPass c).bp = 0 := by
  have := scanLoop_restOf c.buf.length c (by omega) (by omega)
  simp only [h, Nat.zero_sub, List.drop_zero, List.take_zero, Nat.sub_self] at this
  exact ⟨this.1, this.2, rfl⟩

theorem feed_requests (chunk : List Byte) (s : State) : (feed chunk s).1 = (restOf [] (s.buf ++ chunk)).1 := by
  have h := (scanPass_restOf ⟨s.buf ++ chunk, 0, s.crc, []⟩ rfl).1
  rw [List.nil_append] at h
  exact h

theorem feed_buf (chunk : List Byte) (s : State) : (feed chunk s).2.buf = (restOf [] (s.buf ++ chunk)).2 :=
  (scanPass_restOf ⟨s.buf ++ chunk, 0, s.crc, []⟩ rfl).2.1

theorem feed_bp (chunk : List Byte) (s : State) : (feed chunk s).2.bp = 0 := rfl

/-- A feed writes `S.buf`, `S.bp` and `S.crc` only (R20, R21). -/
theorem feed_frame (chunk : List Byte) (s : State) :
    (feed chunk s).2 = { s with buf := (feed chunk s).2.buf, bp := 0, crc := (feed chunk s).2.crc } := rfl

/-! ### The greedy scan -/

theorem greedyFrom_restOf (k : Nat) : ∀ (p : Nat) (x tail : List Byte), x.length ≤ k + p →
    greedyFrom k p x = (restOf tail (x.drop p)).1 := by
  induction k with
  | zero =>
    intro p x tail h
    rw [restOf_short (by simp; omega)]; rfl
  | succ k ih =>
    intro p x tail h
    unfold greedyFrom
    by_cases hs : x.length < p + 8
    · rw [show memRead p frameLen x = none from memRead_eq_none.mpr hs, restOf_short (by simp; omega)]
    · rw [memRead_of_le (by simp [frameLen]; omega)]
      simp only [frameLen]
      cases hd : decodeRequest ((x.drop p).take 8) with
      | some r =>
        rw [restOf_frame hd, List.drop_drop]
        simp only [ih (p + 8) x [] (by omega)]
      | none =>
        rw [restOf_noise (by simp; omega) hd, List.drop_drop]
        exact ih (p + 1) x _ (by omega)

theorem greedyScan_restOf (x : List Byte) : greedyScan x = (restOf [] x).1 := by
  exact greedyFrom_restOf x.length 0 x [] (by omega)

end Sys2Proof.Machine
end

