-- ==== Sys2Proof/Laws/Step.lean ====
section
/-! SUPPORT. Everything one step can do, said once. -/

namespace Sys2Proof.Machine

/-- The ways a step leads from `s` to `t`. -/
inductive StepTo (s t : State) : Prop where
  | reset (ms) (hw : s.world = .reset :: ms) (e : t = powerOnReset { s with world := ms })
  | readFailed (w o n rx) (hf : s.fsm = .idle) (hw : s.world = [] ∧ w = [] ∨ s.world = .poll :: w)
      (e : t = setResult .unit (transportFailure { s with world := w, running := true, oracle := o, draws := n, rx := rx }))
  | pollBegins (w o n rx chunk) (hf : s.fsm = .idle) (hw : s.world = [] ∧ w = [] ∨ s.world = .poll :: w)
      (hc : s.rx = chunk ++ rx)
      (e : t = startScan chunk { s with world := w, running := true, oracle := o, draws := n, rx := rx })
  | elapses (ms k) (hf : s.fsm = .idle) (hw : s.world = .elapse k :: ms) (e : t = { s with world := ms, now := s.now + k })
  | arrives (ms bs) (hf : s.fsm = .idle) (hw : s.world = .arrive bs :: ms) (e : t = { s with world := ms, rx := s.rx ++ bs })
  | writesUnitId (ms v) (hf : s.fsm = .idle) (hr : s.running = false) (hw : s.world = .writeUnitId v :: ms)
      (e : t = { s with world := ms, cfgUnitId := v })
  | writesSilence (ms k) (hf : s.fsm = .idle) (hr : s.running = false) (hw : s.world = .writeSilence k :: ms)
      (e : t = { s with world := ms, cfgSilence := k })
  | scanEnds (hf : s.fsm = .scanning) (hn : scanWindow s.scan = none) (e : t = finishScan s)
  | yields (w r) (hf : s.fsm = .scanning) (hw : scanWindow s.scan = some w) (hd : decodeRequest w = some r)
      (e : t = yieldRequest r w s)
  | rejects (w) (hf : s.fsm = .scanning) (hw : scanWindow s.scan = some w) (hd : decodeRequest w = none)
      (e : t = { s with bp := s.bp + 1, crc := crcRaw (w.take 6) })
  | noRequest (hf : s.fsm = .dispatching) (hr : s.req = none) (e : t = nextRequest s)
  | foreign (r) (hf : s.fsm = .dispatching) (hr : s.req = some r) (hu : r.unitId ≠ s.cfgUnitId)
      (e : t = nextRequest (acceptRequest r.unitId r.functionCode r.address r.count s))
  | unsupported (r) (hf : s.fsm = .dispatching) (hr : s.req = some r) (hu : r.unitId = s.cfgUnitId)
      (hn : r.functionCode ≠ fnReadInput)
      (e : t = raiseException excIllegalFunction r.unitId r.functionCode
        (acceptRequest r.unitId r.functionCode r.address r.count s))
  | tooLarge (r) (hf : s.fsm = .dispatching) (hr : s.req = some r) (hu : r.unitId = s.cfgUnitId)
      (hn : r.functionCode = fnReadInput) (hc : maxCount < r.count)
      (e : t = raiseException excIllegalDataValue r.unitId fnReadInput
        (acceptRequest r.unitId fnReadInput r.address r.count s))
  | reads (r o n regs off calls) (hf : s.fsm = .dispatching) (hr : s.req = some r) (hu : r.unitId = s.cfgUnitId)
      (hn : r.functionCode = fnReadInput) (hc : r.count ≤ maxCount) (hs : spans calls = [])
      (h1 : off.toNat = regs.length) (h2 : regs.length ≤ 126)
      (e : t = { acceptRequest r.unitId fnReadInput r.address r.count s with
        oracle := o, draws := n, trace := s.trace ++ calls, regs := regs, offset := off,
        resp := normalFrame r.unitId fnReadInput regs, crc := crcRaw (normalBody r.unitId fnReadInput regs),
        fsm := .responding })
  | responded (c o n arrived start fin) (hf : s.fsm = .responding) (h1 : max s.now s.deadline ≤ start) (h2 : start ≤ fin)
      (e : t = nextRequest { s with
        crc := c, oracle := o, draws := n, now := fin, rx := s.rx ++ arrived, resp := [],
        trace := s.trace ++ [.tx s.resp start fin], deadline := fin + s.cfgSilence })
  | responseFails (c o n arrived start fin gone) (hf : s.fsm = .responding) (h1 : max s.now s.deadline ≤ start)
      (h2 : start ≤ fin)
      (e : t = transportFailure { s with
        crc := c, oracle := o, draws := n, now := fin, rx := s.rx ++ arrived,
        trace := s.trace ++ [.txFailed s.resp gone start fin], deadline := fin + s.cfgSilence })

/-- A prepared response is sent in one of those two ways, whatever the accumulator holds. -/
theorem stepTo_respond {s : State} (hf : s.fsm = .responding) (c : Word) : StepTo s (respond s.resp { s with crc := c }) := by
  obtain ⟨o, n, arrived, start, fin, h1, h2, h | ⟨gone, _, h⟩⟩ := respond_spec s.resp { s with crc := c }
  · exact .responded c o n arrived start fin hf h1 h2 h
  · exact .responseFails c o n arrived start fin gone hf h1 h2 h

theorem row_cases (unit : Byte) (r : Request) :
    (r.unitId ≠ unit ∧ r.row unit = .reqForeign r.unitId r.functionCode r.address r.count) ∨
    (r.unitId = unit ∧ r.functionCode ≠ fnReadInput ∧
      r.row unit = .reqUnsupportedFunction r.unitId r.functionCode r.address r.count) ∨
    (r.unitId = unit ∧ r.functionCode = fnReadInput ∧ maxCount < r.count ∧
      r.row unit = .reqCountTooLarge r.unitId r.address r.count) ∨
    (r.unitId = unit ∧ r.functionCode = fnReadInput ∧ r.count ≤ maxCount ∧
      r.row unit = .reqReadInputRegisters r.unitId r.address r.count) := by
  unfold Request.row
  by_cases h1 : r.unitId = unit
  · by_cases h2 : r.functionCode = fnReadInput
    · by_cases h3 : maxCount < r.count
      · simp [h1, h2, h3]
      · simp [h1, h2, h3, BitVec.not_lt.mp h3]
    · simp [h1, h2]
  · simp [h1]

/-- A row of a latched Request always has a next state. -/
theorem exec_row (r : Request) (s : State) (hf : s.fsm = .dispatching) (hr : s.req = some r) :
    ∃ t, exec (r.row s.cfgUnitId) s = .next t ∧ StepTo s t := by
  rcases row_cases s.cfgUnitId r with ⟨h1, e⟩ | ⟨h1, h2, e⟩ | ⟨h1, h2, h3, e⟩ | ⟨h1, h2, h3, e⟩
  · exact ⟨_, by rw [e]; rfl, .foreign r hf hr h1 rfl⟩
  · exact ⟨_, by rw [e]; rfl, .unsupported r hf hr h1 h2 rfl⟩
  · exact ⟨_, by rw [e]; rfl, .tooLarge r hf hr h1 h2 h3 rfl⟩
  · obtain ⟨o, n, regs, off, calls, ha, hs, g1, _, g3⟩ :=
      assemble_spec r.address r.count h3 (acceptRequest r.unitId fnReadInput r.address r.count s)
    have hc : r.count.toNat ≤ 125 := h3
    refine ⟨_, by rw [e]; rfl, .reads r o n regs off calls hf hr h1 h2 h3 hs g1 (by omega) ?_⟩
    rw [ha]; rfl

/-- A response row that stands in TXBUF sends exactly the frame that stands there. -/
theorem exec_response {s : State} {i : Instr} (h : decodeResponse s.resp = .ok i) :
    ∃ c, exec i s = .next (respond s.resp { s with crc := c }) := by
  rcases decodeResponse_cases h with ⟨u, regs, rfl, hl, e⟩ | ⟨u, f7, rfl, e⟩ | ⟨u, rfl, e⟩
  · refine ⟨crcRaw (normalBody u fnReadInput regs), ?_⟩
    show execRspNormal u regs s = _
    rw [execRspNormal, if_neg (by simp [maxEncodable]; omega), ← e]
    simp only [encodeNormal, ← e]
  · refine ⟨crcRaw (exceptionBody u (f7.setWidth 8) excIllegalFunction), ?_⟩
    show execRspExcIllegalFunction u f7 s = _
    rw [execRspExcIllegalFunction, ← e]
    simp only [encodeException, ← e]
  · refine ⟨crcRaw (exceptionBody u fnReadInput excIllegalDataValue), ?_⟩
    show execRspExcIllegalDataValue u s = _
    rw [execRspExcIllegalDataValue, ← e]
    simp only [encodeException, ← e]

/-- Unless power-on reset comes next, the engine's state selects what runs. -/
theorem fetch_of_no_reset {s : State} (h : ∀ ms, s.world ≠ .reset :: ms) : fetch s = fetchByState s := by
  unfold fetch
  split
  · rename_i ms hw; exact absurd hw (h ms)
  · rfl

theorem step_of_run {s t : State} {i : Instr} (h : fetch s = .run i t) : step s = exec i t := by
  rw [step, h]

theorem step_of_go {s t : State} (h : fetch s = .go t) : step s = .next t := by
  rw [step, h]

theorem fetchPoll_cases (s : State) (w : List Move) :
    (∃ o n rx, fetchPoll { s with world := w } =
      .run (.engXfail .read) { s with world := w, running := true, oracle := o, draws := n, rx := rx }) ∨
    ∃ o n rx chunk, s.rx = chunk ++ rx ∧ fetchPoll { s with world := w } =
      .go (startScan chunk { s with world := w, running := true, oracle := o, draws := n, rx := rx }) := by
  obtain ⟨o, n, rx, c, h, hc⟩ := readChunk_spec { s with world := w }
  unfold fetchPoll
  rw [h]
  cases c with
  | none => exact .inl ⟨o, n, rx, rfl⟩
  | some chunk => exact .inr ⟨o, n, rx, chunk, hc chunk rfl, rfl⟩

/-- A poll that begins always has a next state. -/
theorem step_poll {s : State} {w : List Move} (hf : s.fsm = .idle) (hw : s.world = [] ∧ w = [] ∨ s.world = .poll :: w)
    (h : fetch s = fetchPoll { s with world := w }) :
    ∃ t, step s = .next t ∧ StepTo s t := by
  rcases fetchPoll_cases s w with ⟨o, n, rx, e⟩ | ⟨o, n, rx, chunk, hc, e⟩
  · exact ⟨_, step_of_run (h.trans e), .readFailed w o n rx hf hw rfl⟩
  · exact ⟨_, step_of_go (h.trans e), .pollBegins w o n rx chunk hf hw hc rfl⟩

/-- One step: it leads to a next state in one of the ways of `StepTo`, or it is the refusal of a late configuration (U8). -/
theorem step_total (s : State) : (∃ t, step s = .next t ∧ StepTo s t) ∨
    (step s = .refused .configurationWhileRunning ∧ s.fsm = .idle ∧ s.running = true ∧
      ∃ ms, (∃ v, s.world = .writeUnitId v :: ms) ∨ ∃ k, s.world = .writeSilence k :: ms) := by
  by_cases hreset : ∃ ms, s.world = .reset :: ms
  · obtain ⟨ms, hw⟩ := hreset
    have hb : fetch s = .run .engReset { s with world := ms } := by simp only [fetch, hw]
    exact .inl ⟨_, step_of_run hb, .reset ms hw rfl⟩
  · have hfetch : fetch s = fetchByState s := by
      unfold fetch
      split
      · rename_i ms hw; exact absurd ⟨ms, hw⟩ hreset
      · rfl
    cases hf : s.fsm with
    | idle =>
      have hb : fetch s = fetchIdle s.world s := by rw [hfetch]; simp only [fetchByState, hf]
      cases hw : s.world with
      | nil => exact .inl (step_poll (w := s.world) hf (.inl ⟨hw, hw⟩) (by rw [hb, hw]; simp only [fetchIdle, ← hw]))
      | cons m ms =>
        rw [hw] at hb
        cases m with
        | elapse k => exact .inl ⟨_, step_of_go hb, .elapses ms k hf hw rfl⟩
        | arrive bs => exact .inl ⟨_, step_of_go hb, .arrives ms bs hf hw rfl⟩
        | poll => exact .inl (step_poll (w := ms) hf (.inr hw) hb)
        | reset => exact absurd ⟨ms, hw⟩ hreset
        | writeUnitId v =>
          cases hr : s.running with
          | true =>
            refine .inr ⟨?_, rfl, rfl, ms, .inl ⟨v, rfl⟩⟩
            rw [step, hb]; simp only [fetchIdle, hr, if_true]
          | false =>
            exact .inl ⟨_, step_of_go (by rw [hb]; simp only [fetchIdle, hr]; rfl), .writesUnitId ms v hf hr hw rfl⟩
        | writeSilence k =>
          cases hr : s.running with
          | true =>
            refine .inr ⟨?_, rfl, rfl, ms, .inr ⟨k, rfl⟩⟩
            rw [step, hb]; simp only [fetchIdle, hr, if_true]
          | false =>
            exact .inl ⟨_, step_of_go (by rw [hb]; simp only [fetchIdle, hr]; rfl), .writesSilence ms k hf hr hw rfl⟩
    | scanning =>
      have hb : fetch s = fetchWindow s := by rw [hfetch]; simp only [fetchByState, hf]
      cases hw : scanWindow s.scan with
      | none => exact .inl ⟨_, step_of_go (by rw [hb]; simp only [fetchWindow, hw]), .scanEnds hf hw rfl⟩
      | some w =>
        cases hd : decodeRequest w with
        | some r => exact .inl ⟨_, step_of_go (by rw [hb]; simp only [fetchWindow, hw, hd]), .yields w r hf hw hd rfl⟩
        | none =>
          obtain ⟨u, f, a, n, lo, hi, hi1, hi2⟩ :=
            decodeWindow_of_invalid (unit := s.cfgUnitId) (memRead_length hw) hd
          have hb2 : fetch s = .run (.reqInvalid u f a n lo hi) s := by rw [hb]; simp only [fetchWindow, hw, hd, hi1]
          refine .inl ⟨_, step_of_run hb2, .rejects w hf hw hd ?_⟩
          rw [hi2]; rfl
    | dispatching =>
      have hb : fetch s = fetchRequest s := by rw [hfetch]; simp only [fetchByState, hf]
      cases hr : s.req with
      | none => exact .inl ⟨_, step_of_go (by rw [hb]; simp only [fetchRequest, hr]), .noRequest hf hr rfl⟩
      | some r =>
        obtain ⟨t, ht, hst⟩ := exec_row r s hf hr
        exact .inl ⟨t, (step_of_run (by rw [hb]; simp only [fetchRequest, hr])).trans ht, hst⟩
    | responding =>
      have hb : fetch s = fetchResponse s := by rw [hfetch]; simp only [fetchByState, hf]
      cases hd : decodeResponse s.resp with
      | error e => exact .inl ⟨_, step_of_go (by rw [hb]; simp only [fetchResponse, hd]), stepTo_respond hf s.crc⟩
      | ok i =>
        obtain ⟨c, hc⟩ := exec_response hd
        exact .inl ⟨_, (step_of_run (by rw [hb]; simp only [fetchResponse, hd])).trans hc, stepTo_respond hf c⟩

/-- What a step that leads on did. -/
theorem stepTo_of_step {s t : State} (h : step s = .next t) : StepTo s t := by
  rcases step_total s with ⟨u, hu, hst⟩ | ⟨hr, _⟩
  · rw [hu] at h; cases h; exact hst
  · rw [hr] at h; cases h

end Sys2Proof.Machine
end

