-- ==== Sys2Proof/Tests/Slice0.lean ====
section
/-! SUPPORT. Tests. Expected values come from the worked examples and vectors of the spec (95_test_vectors.md, and the rules'
own examples); each test names its source. The last part shows, for every statement with hypotheses, a case that meets them. -/

namespace Sys2Proof.Tests

set_option Elab.async false

open Sys2Proof Sys2Proof.Machine

/-! ### The conventions of 95_test_vectors.md -/

/-- `UNIT_ID = 2`, the fixture `KNOWN = {0, 6, 12}`, time 100, deadline 38; the gate returns at once and one write takes `ticks`.
The readings are the ones given, in the order of the calls. -/
def fixture (ticks : Nat) (readings : List Long) : State :=
  { State.reset with
    cfgUnitId := 2
    now := 100
    cfg := { baud := 9600, ticksPerBit := 1, tickHz := none, known := [0, 6, 12], readTimeout := 0 }
    oracle := { avail := [.ok], read := [.bytes 300], gate := [⟨0, []⟩], write := [.ok ticks []], reading := readings } }

/-- The fixture with nothing to read. -/
def bench : State := fixture 90 []

/-- The state an instruction leads to. -/
def after (i : Instr) (s : State) : Option State :=
  match exec i s with
  | .next t => some t
  | .fault _ => none
  | .refused _ => none

/-- The value an instruction returns. -/
def value (i : Instr) (s : State) : Option Result := (after i s).map State.ret

/-- The state `k` steps lead to. -/
def afterSteps (k : Nat) (s : State) : Option State :=
  match stepN k s with
  | .next t => some t
  | .fault _ => none
  | .refused _ => none

/-- The Request of a frame. -/
def req (f : Byte) (u : Byte) (a n : Word) : Request := Request.ofFields u f a n

/-- The source's literal frame (S2). -/
def literal : List Byte := [0x02, 0x04, 0x00, 0x00, 0x00, 0x12, 0x70, 0x34]

/-- Eight bytes that are no frame (V-ASM-6). -/
def corrupted : List Byte := [0x02, 0x04, 0x00, 0x00, 0x00, 0x13, 0x70, 0x34]

/-! ### WellFormed: an ill-formed term for each check, which it refuses, and a well-formed neighbour -/

theorem test_wellformed_request : ({ req 4 2 0 18 with raw := corrupted }).wellFormed = false ∧ (req 4 2 0 18).wellFormed = true := by
  decide +kernel

theorem test_wellformed_invalid : (Instr.reqInvalid 2 4 0 18 0x70 0x34).wellFormed 2 = false ∧
    (Instr.reqInvalid 2 4 0 19 0x70 0x34).wellFormed 2 = true := by decide +kernel

theorem test_wellformed_foreign : (Instr.reqForeign 2 4 0 2).wellFormed 2 = false ∧ (Instr.reqForeign 1 4 0 2).wellFormed 2 = true := by
  decide

theorem test_wellformed_unsupported : (Instr.reqUnsupportedFunction 2 4 0 2).wellFormed 2 = false ∧
    (Instr.reqUnsupportedFunction 1 3 0 2).wellFormed 2 = false ∧ (Instr.reqUnsupportedFunction 2 3 0 2).wellFormed 2 = true := by decide

theorem test_wellformed_count : (Instr.reqCountTooLarge 2 0 125).wellFormed 2 = false ∧
    (Instr.reqReadInputRegisters 2 0 126).wellFormed 2 = false ∧ (Instr.reqCountTooLarge 2 0 126).wellFormed 2 = true ∧
    (Instr.reqReadInputRegisters 2 0 125).wellFormed 2 = true := by decide

theorem test_wellformed_other_unit : (Instr.reqCountTooLarge 1 0 126).wellFormed 2 = false ∧
    (Instr.reqReadInputRegisters 1 0 125).wellFormed 2 = false := by decide

theorem test_wellformed_registers : (Instr.rspNormal 2 (List.replicate 127 0)).wellFormed 2 = false ∧
    (Instr.encNormal 2 4 (List.replicate 127 0)).wellFormed 2 = false ∧ (Instr.rspNormal 2 (List.replicate 126 0)).wellFormed 2 = true := by
  decide +kernel

theorem test_wellformed_operands : (Instr.engAssemble 0 126).wellFormed 2 = false ∧ (Instr.encException 2 4 2).wellFormed 2 = false ∧
    (Instr.engSend []).wellFormed 2 = false := by decide

theorem test_wellformed_held_requests : (Instr.engStats { req 4 2 0 18 with count := 19 }).wellFormed 2 = false ∧
    (Instr.engDispatch { req 4 2 0 18 with unitId := 1 }).wellFormed 2 = false := by decide +kernel

/-! ### Decoding: words written out from the spec's encodings (R71 to R73), one for each row that has one -/

/-- S2: byte 0 is the most significant byte of the word, `address` and `count` are high byte first. -/
theorem test_decode_read : decode 2 (bytesOfNat 8 0x0204000000127034) = .ok (.reqReadInputRegisters 2 0x0000 0x0012) := by decide +kernel

/-- V-DEC-2: no field is swapped with another. -/
theorem test_decode_fields : decode 0x11 [0x11, 0x04, 0x12, 0x34, 0x00, 0x56, 0x36, 0x12]
    = .ok (.reqReadInputRegisters 0x11 0x1234 0x0056) := by decide +kernel

/-- V-DEC-3, V-DEC-4: one bit of the count flipped; the CRC bytes exchanged. -/
theorem test_decode_invalid : decode 2 corrupted = .ok (.reqInvalid 2 4 0 0x13 0x70 0x34) ∧
    decode 2 [0x02, 0x04, 0x00, 0x00, 0x00, 0x12, 0x34, 0x70] = .ok (.reqInvalid 2 4 0 0x12 0x34 0x70) := by decide +kernel

/-- V-ENG-1, V-ENG-8: the unit is tested first. -/
theorem test_decode_foreign : decode 2 [0x01, 0x04, 0x00, 0x00, 0x00, 0x02, 0x71, 0xCB] = .ok (.reqForeign 1 4 0 2) ∧
    decode 2 [0x01, 0x03, 0x00, 0x00, 0x00, 0x7E, 0xC5, 0xEA] = .ok (.reqForeign 1 3 0 126) := by decide +kernel

/-- V-ENG-3, V-ENG-4: the function is tested before the count; bit 7 set is a function like any other. -/
theorem test_decode_unsupported : decode 2 [0x02, 0x06, 0x00, 0x00, 0x00, 0xC8, 0x88, 0x6F] = .ok (.reqUnsupportedFunction 2 6 0 200) ∧
    decode 2 [0x02, 0x84, 0x00, 0x00, 0x00, 0x02, 0x70, 0x26] = .ok (.reqUnsupportedFunction 2 0x84 0 2) := by decide +kernel

/-- V-ENG-5 to V-ENG-7: 125 is accepted, 126 and 65535 are not. -/
theorem test_decode_count : decode 2 [0x02, 0x04, 0x00, 0x00, 0x00, 0x7D, 0x30, 0x18] = .ok (.reqReadInputRegisters 2 0 125) ∧
    decode 2 [0x02, 0x04, 0x00, 0x00, 0x00, 0x7E, 0x70, 0x19] = .ok (.reqCountTooLarge 2 0 126) ∧
    decode 2 [0x02, 0x04, 0x00, 0x00, 0xFF, 0xFF, 0xF1, 0x89] = .ok (.reqCountTooLarge 2 0 65535) := by decide +kernel

/-- V-ENC-1, V-ENC-2. -/
theorem test_decode_normal : decode 2 [0x02, 0x04, 0x00, 0xD2, 0xC0] = .ok (.rspNormal 2 []) ∧
    decode 2 [0x02, 0x04, 0x04, 0x43, 0x73, 0x00, 0x00, 0x2C, 0xDB] = .ok (.rspNormal 2 [0x4373, 0x0000]) := by decide +kernel

/-- V-ENC-4, V-ENC-5, V-ENC-8. -/
theorem test_decode_exceptions : decode 2 [0x02, 0x84, 0x03, 0xF3, 0x01] = .ok (.rspExcIllegalDataValue 2) ∧
    decode 2 [0x02, 0x83, 0x01, 0x70, 0xF0] = .ok (.rspExcIllegalFunction 2 3) ∧
    decode 2 [0x11, 0x81, 0x01, 0x80, 0x55] = .ok (.rspExcIllegalFunction 0x11 1) := by decide +kernel

/-- Byte sequences that are no row: a wrong CRC, a code other than 0x01 and 0x03, an odd byte count, too few bytes. -/
theorem test_decode_rejects : decode 2 [0x02, 0x84, 0x03, 0xF3, 0x02] = .error .badCrc ∧
    decode 2 ([0x02, 0x84, 0x02] ++ crcWire [0x02, 0x84, 0x02]) = .error .badExceptionCode ∧
    decode 2 [0x02, 0x04, 0x01, 0x00, 0x00, 0x00] = .error .badByteCount ∧ decode 2 [0x02, 0x04] = .error .badLength ∧
    decode 2 [0x02, 0x03, 0x00, 0x00, 0x00] = .error .badFunction := by decide +kernel

/-- R84: a table word is placed where the next step runs it, for each of the three formats. -/
theorem test_place_word :
    (afterSteps 1 (bench.withFetchWord 64 0x0204000000137034)).map State.bp = some 1 ∧
    ((afterSteps 1 (bench.withFetchWord 64 0x0203000000020C38)).map State.bp = some 1 ∧
    (afterSteps 1 (bench.withFetchWord 64 0x020300000002C438)).map State.resp = some [0x02, 0x83, 0x01, 0x70, 0xF0]) ∧
    (afterSteps 1 (bench.withFetchWord 40 0x028301F070)).map State.trace = some [.tx [0x02, 0x83, 0x01, 0xF0, 0x70] 100 190] ∧
    (afterSteps 1 (bench.withFetchWord 40 0x02830170F0)).map State.trace = some [.tx [0x02, 0x83, 0x01, 0x70, 0xF0] 100 190] := by
  decide +kernel

/-! ### The CRC16 Codec -/

/-- R100, V-CRC-17. -/
theorem test_crcStep : value (.crcStep 0xFFFF 0x02) bench = some (.word 0x813E) ∧ value (.crcStep 0 0) bench = some (.word 0) := by decide +kernel

/-- V-CRC-9, V-CRC-7. -/
theorem test_crcRaw : value (.crcRaw [0x31, 0x32, 0x33, 0x34, 0x35, 0x36, 0x37, 0x38, 0x39]) bench = some (.word 0x4B37) ∧
    value (.crcRaw [0, 0, 0, 0, 0, 0]) bench = some (.word 0x1B00) := by decide +kernel

/-- R101: the accumulator after each byte (V-CRC-16). -/
theorem test_crcRaw_bytes : [0x02, 0x04, 0x00, 0x00, 0x00, 0x12].scanl crcStep 0xFFFF
    = [0xFFFF, 0x813E, 0x1301, 0xC0D2, 0x5D40, 0xF05C, 0x3470] := by decide +kernel

/-- V-CRC-6, and the accumulator left behind is not swapped. -/
theorem test_crcCompute : value (.crcCompute [0x11, 0x03, 0x00]) bench = some (.word 0x2135) ∧
    (after (.crcCompute [0x11, 0x03, 0x00]) bench).map State.crc = some 0x3521 := by decide +kernel

/-- V-CRC-12. -/
theorem test_crcVerify : value (.crcVerify [0x02, 0x04, 0x00, 0x00, 0x00, 0x12] 0x7034) bench = some (.bool true) ∧
    value (.crcVerify [0x02, 0x04, 0x00, 0x00, 0x00, 0x12] 0x3470) bench = some (.bool false) := by decide +kernel

/-- V-CRC-15. -/
theorem test_crcTable : crcTable.length = 256 ∧ crcTable[0x02]? = some 0xC181 ∧ crcTable[0x40]? = some 0xF001 ∧
    crcTable[0xFF]? = some 0x4040 := by decide +kernel

/-- R105. -/
theorem test_crcTstep : value (.crcTstep 0xFFFF 0x02) bench = some (.word 0x813E) := by decide +kernel

/-! ### The Frame Assembler and the Request Decoder -/

/-- R121, V-ASM-4, V-ASM-8. -/
theorem test_asmFeed : value (.asmFeed (0xA5 :: literal)) bench = some (.requests [req 4 2 0 18]) ∧
    (after (.asmFeed [1, 2, 3, 4, 5, 6, 7, 8, 9]) bench).map (fun t => (t.buf, t.bp)) = some ([2, 3, 4, 5, 6, 7, 8, 9], 0) := by
  decide +kernel

/-- V-ASM-10, V-ASM-6. -/
theorem test_asmFeed_several : value (.asmFeed [0x02, 0x04, 0x00, 0x00, 0x00, 0x02, 0x71, 0xF8, 0x99, 0x02, 0x04, 0x00, 0x0C, 0x00, 0x02,
      0xB1, 0xFB]) bench = some (.requests [req 4 2 0 2, req 4 2 12 2]) ∧
    (after (.asmFeed corrupted) bench).map State.buf = some corrupted := by decide +kernel

/-- V-ASM-14. -/
theorem test_asmFlush : (after .asmFlush { bench with buf := [0x02, 0x04, 0x00, 0x00, 0x00] }).map (fun t => (t.buf, t.bp)) = some ([], 0) := by
  decide +kernel

/-- V-DEC-1, V-DEC-5. -/
theorem test_decDecode : value (.decDecode literal) bench
      = some (.request { unitId := 2, functionCode := 4, address := 0, count := 18, raw := literal }) ∧
    value (.decDecode [0, 0, 0, 0, 0, 0, 0, 0x1B]) bench
      = some (.request { unitId := 0, functionCode := 0, address := 0, count := 0, raw := [0, 0, 0, 0, 0, 0, 0, 0x1B] }) := by
  decide +kernel

/-- V-DEC-4, V-DEC-6, V-DEC-7. -/
theorem test_decDecode_invalid : value (.decDecode [0x02, 0x04, 0x00, 0x00, 0x00, 0x12, 0x34, 0x70]) bench = some .invalid ∧
    value (.decDecode [0, 0, 0, 0, 0, 0, 0, 0]) bench = some .invalid ∧ value (.decDecode (literal ++ [0])) bench = some .invalid := by
  decide +kernel

/-! ### The value source, the assembly and the encoder -/

/-- R151, R153 (V-RVS-1, V-RVS-3). -/
theorem test_rvsPack : (after (.rvsPack 0 6) (fixture 90 [0xC0A66666])).map (fun t => (t.ret, t.regs)) = some (.written 2, [0xC0A6, 0x6666]) ∧
    (after (.rvsPack 1 0) bench).map (fun t => (t.ret, t.regs, t.trace)) = some (.written 1, [0], [.call 1 0]) := by decide +kernel

/-- V-RVS-5: three registers for a count of 2; V-RVS-11: no sum above 65535 is known. -/
theorem test_engAssemble : value (.engAssemble 5 2) (fixture 90 [0xC0A66666]) = some (.words [0, 0xC0A6, 0x6666]) ∧
    (after (.engAssemble 0xFFFF 2) bench).map (fun t => (t.regs, t.trace)) = some ([0, 0], [.call 0xFFFF 0, .call 0xFFFF 1]) := by
  decide +kernel

/-- S2: the eighteen registers and the offsets of the fifteen calls. -/
theorem test_engAssemble_calls : (after (.engAssemble 0 18) (fixture 90 [0x43730000, 0xC0A66666, 0x447FC000])).map
      (fun t => (t.regs, t.trace)) = some ([0x4373, 0, 0, 0, 0, 0, 0xC0A6, 0x6666, 0, 0, 0, 0, 0x447F, 0xC000, 0, 0, 0, 0],
        [0, 2, 3, 4, 5, 6, 8, 9, 10, 11, 12, 14, 15, 16, 17].map (Event.call 0)) := by decide +kernel

/-- V-ENC-3, V-ENC-1. -/
theorem test_encNormal : value (.encNormal 2 4 [0]) bench = some (.bytes [0x02, 0x04, 0x02, 0x00, 0x00, 0xFD, 0x30]) ∧
    value (.encNormal 2 4 []) bench = some (.bytes [0x02, 0x04, 0x00, 0xD2, 0xC0]) := by decide +kernel

/-- V-ENC-6, V-ENC-7. -/
theorem test_encException : value (.encException 2 0x84 1) bench = some (.bytes [0x02, 0x84, 0x01, 0x72, 0xC0]) ∧
    value (.encException 2 6 1) bench = some (.bytes [0x02, 0x86, 0x01, 0x73, 0xA0]) := by decide +kernel

/-! ### The Silence Timer -/

/-- V-SIL-6, V-SIL-7. -/
theorem test_silThresh : value .silThresh { bench with cfg := { bench.cfg with ticksPerBit := 16 } } = some (.ticks 608) ∧
    value .silThresh { bench with cfg := { bench.cfg with tickHz := some 1000000 } } = some (.ticks 3959) := by decide +kernel

/-- V-SIL-2. -/
theorem test_silExpired : value .silExpired { bench with deadline := 548, now := 547 } = some (.bool false) ∧
    value .silExpired { bench with deadline := 548, now := 548 } = some (.bool true) := by decide +kernel

/-- V-SIL-3, V-SIL-4. -/
theorem test_silGate : (after .silGate { bench with deadline := 1088, now := 1050 }).map State.now = some 1088 ∧
    (after .silGate { bench with deadline := 1176, now := 2000 }).map State.now = some 2000 := by decide +kernel

/-- V-SIL-1. -/
theorem test_silMark : (after (.silMark 510) bench).map State.deadline = some 548 := by decide +kernel

/-! ### The Slave Engine -/

/-- The response of the source's example (S2). -/
def literalResponse : List Byte :=
  [0x02, 0x04, 0x24, 0x43, 0x73, 0x00, 0x00, 0x00, 0x00, 0x00, 0x00, 0x00, 0x00, 0x00, 0x00] ++
    [0xC0, 0xA6, 0x66, 0x66, 0x00, 0x00, 0x00, 0x00, 0x00, 0x00, 0x00, 0x00] ++
    [0x44, 0x7F, 0xC0, 0x00, 0x00, 0x00, 0x00, 0x00, 0x00, 0x00, 0x00, 0x00, 0x70, 0x22]

/-- P1: the source's request, end to end (S2). -/
theorem test_engPoll : (after .engPoll { fixture 410 [0x43730000, 0xC0A66666, 0x447FC000] with rx := literal }).map
      (fun t => (t.trace.drop 15, t.buf, t.deadline, t.stats))
    = some ([.tx literalResponse 100 510], [], 548, [(⟨2, 4, 0, 18⟩, 1)]) := by decide +kernel

/-- P2: noise, a foreign request and two exceptions in one poll. -/
theorem test_engPoll_several : (after .engPoll { bench with
      now := 1000
      oracle := { bench.oracle with gate := [⟨0, []⟩, ⟨0, []⟩], write := [.ok 50 [], .ok 50 []] }
      rx := [0xFF, 0x00, 0x01, 0x04, 0x00, 0x00, 0x00, 0x02, 0x71, 0xCB, 0x55, 0x02, 0x03, 0x00, 0x00, 0x00, 0x02, 0xC4, 0x38] ++
        [0x02, 0x04, 0x00, 0x00, 0x00, 0x7E, 0x70, 0x19] }).map (fun t => (t.trace, t.deadline, t.stats, t.total)) =
    some ([.tx [0x02, 0x83, 0x01, 0x70, 0xF0] 1000 1050, .tx [0x02, 0x84, 0x03, 0xF3, 0x01] 1088 1138], 1176,
      [(⟨1, 4, 0, 2⟩, 1), (⟨2, 3, 0, 2⟩, 1), (⟨2, 4, 0, 126⟩, 1)], 3) := by decide +kernel

/-- P4: a failed poll forgets the bytes of a partly received frame and keeps the deadline; what waits in the transport stays
(R58). -/
theorem test_engXfail : (after (.engXfail .read) { bench with buf := [0x02, 0x04, 0x00, 0x00, 0x00], bp := 0 }).map
      (fun t => (t.buf, t.deadline, t.fsm)) = some ([], 38, .idle) ∧
    (after .engPoll { bench with oracle := { bench.oracle with avail := [.fail] }, buf := [2, 4], rx := [7] }).map
      (fun t => (t.buf, t.rx, t.deadline, t.total)) = some ([], [7], 38, 0) := by decide +kernel

/-- R205: the same frame twice counts twice (P6); another one gets its own count. -/
theorem test_engStats : ((after (.engStats (req 4 2 11 1)) bench).bind (after (.engStats (req 4 2 11 1)))).map
      (fun t => (t.stats, t.total)) = some ([(⟨2, 4, 11, 1⟩, 2)], 2) ∧
    (after (.engStats (req 4 1 0 2)) { bench with stats := [(⟨2, 4, 11, 1⟩, 2)], total := 2 }).map (fun t => (t.stats, t.total))
      = some ([(⟨1, 4, 0, 2⟩, 1), (⟨2, 4, 11, 1⟩, 2)], 3) := by decide +kernel

/-- V-ENG-8, V-ENG-3. -/
theorem test_engDispatch : value (.engDispatch (req 3 1 0 126)) bench = some .noResponse ∧
    value (.engDispatch (req 6 2 0 200)) bench = some (.bytes [0x02, 0x86, 0x01, 0x73, 0xA0]) := by decide +kernel

/-- P2: the second response waits from 1050 to 1088; V-SIL-8: a write that starts at 300 and fails at 340. -/
theorem test_engSend : (after (.engSend [2]) { fixture 50 [] with now := 1050, deadline := 1088 }).map (fun t => (t.trace, t.deadline))
      = some ([.tx [2] 1088 1138], 1176) ∧
    (after (.engSend [2, 3]) { bench with now := 300, oracle := { bench.oracle with write := [.fail 40 1 []] } }).map
      (fun t => (t.trace, t.deadline, t.ret)) = some ([.txFailed [2, 3] 1 300 340], 378, .bool false) := by decide +kernel

/-- R261, V-SIL-5. -/
theorem test_engReset : (after .engReset { bench with buf := [1], stats := [(⟨2, 4, 0, 1⟩, 1)], total := 1, now := 7 }).map
      (fun t => (t.buf, t.deadline, t.stats, t.total, t.fsm)) = some ([], 45, [], 0, .idle) := by decide +kernel

/-! ### The request and response rows, as the engine runs them -/

/-- R124. -/
theorem test_reqInvalid : (after (.reqInvalid 2 4 0 0x13 0x70 0x34) { bench with bp := 3 }).map (fun t => (t.bp, t.total)) = some (4, 0) := by
  decide +kernel

/-- V-ENG-1: counted, no response, the deadline unchanged. -/
theorem test_reqForeign : (after (.reqForeign 1 4 0 2) { bench with fsm := .dispatching }).map
      (fun t => (t.stats, t.trace, t.deadline, t.fsm)) = some ([(⟨1, 4, 0, 2⟩, 1)], [], 38, .idle) := by decide +kernel

/-- V-ENG-4. -/
theorem test_reqUnsupportedFunction : (after (.reqUnsupportedFunction 2 0x84 0 2) bench).map (fun t => (t.resp, t.fsm, t.total))
    = some ([0x02, 0x84, 0x01, 0x72, 0xC0], .responding, 1) := by decide +kernel

/-- V-ENG-7. -/
theorem test_reqCountTooLarge : (after (.reqCountTooLarge 2 0 65535) bench).map (fun t => (t.resp, t.fsm, t.trace))
    = some ([0x02, 0x84, 0x03, 0xF3, 0x01], .responding, []) := by decide +kernel

/-- V-RVS-10 and V-RVS-6. -/
theorem test_reqReadInputRegisters : (after (.reqReadInputRegisters 2 4 6) (fixture 90 [0xC0A66666])).map State.resp
      = some [0x02, 0x04, 0x0C, 0x00, 0x00, 0x00, 0x00, 0xC0, 0xA6, 0x66, 0x66, 0x00, 0x00, 0x00, 0x00, 0x1D, 0x22] ∧
    (after (.reqReadInputRegisters 2 0 0) bench).map State.resp = some [0x02, 0x04, 0x00, 0xD2, 0xC0] := by decide +kernel

/-- V-RVS-12: the longest response there is. -/
theorem test_longest_response : (after (.reqReadInputRegisters 2 0 125)
      { fixture 90 [0x3F800000] with cfg := { bench.cfg with known := [124] } }).map
      (fun t => (t.resp.length, t.resp.take 3, (t.resp.drop 251).take 4, t.regs.length))
    = some (257, [0x02, 0x04, 0xFC], [0x3F, 0x80, 0x00, 0x00], 126) := by
  decide +kernel

/-- V-RVS-7: sent from 100 to 190, then the engine is idle. -/
theorem test_rspNormal : (after (.rspNormal 2 [0x447F, 0xC000]) { bench with fsm := .responding }).map (fun t => (t.trace, t.deadline, t.fsm))
    = some ([.tx [0x02, 0x04, 0x04, 0x44, 0x7F, 0xC0, 0x00, 0xBD, 0xAC] 100 190], 228, .idle) := by decide +kernel

/-- V-ENC-8. -/
theorem test_rspExcIllegalFunction : (after (.rspExcIllegalFunction 0x11 1) bench).map State.trace
    = some [.tx [0x11, 0x81, 0x01, 0x80, 0x55] 100 190] := by decide +kernel

/-- S3; and a failed write abandons the request. -/
theorem test_rspExcIllegalDataValue : (after (.rspExcIllegalDataValue 2) bench).map State.trace
      = some [.tx [0x02, 0x84, 0x03, 0xF3, 0x01] 100 190] ∧
    (after (.rspExcIllegalDataValue 2) { bench with
        oracle := { bench.oracle with write := [.fail 40 2 []] }, pending := [req 4 2 0 1], buf := [1] }).map
      (fun t => (t.buf, t.pending, t.fsm, t.deadline)) = some ([], [], .idle, 178) := by decide +kernel

/-- P5: the steps of one poll, from reading to `Idle`: the false frame is counted and ignored, the real one is lost. -/
theorem test_steps : (afterSteps 4 { bench with
      cfgUnitId := 0x1B
      rx := [0, 0, 0, 0, 0, 0, 0, 0x1B, 0x04, 0x00, 0x00, 0x00, 0x02, 0x73, 0xF1] }).map (fun t => (t.buf, t.stats, t.trace, t.fsm))
    = some ([0x04, 0x00, 0x00, 0x00, 0x02, 0x73, 0xF1], [(⟨0, 0, 0, 0⟩, 1)], [], .idle) := by
  decide +kernel

/-- R30: what the host reads, after two requests of one signature. -/
theorem test_readControl : readControl .cfgUnitId bench = .number 2 ∧ readControl .cfgSilence bench = .number 38 ∧
    readControl .statTotal { bench with stats := [(⟨2, 4, 11, 1⟩, 2)], total := 2 } = .number 2 ∧
    readControl .statMap { bench with stats := [(⟨2, 4, 11, 1⟩, 2)], total := 2 } = .entries [(⟨2, 4, 11, 1⟩, 2)] := by decide

/-! ### Witnesses: for each statement with hypotheses, states and operands that meet all of them, at the edges of each clause -/

/-- Whether an outcome is a next state. -/
def isNext (o : Outcome) : Bool :=
  match o with
  | .next _ => true
  | .fault _ => false
  | .refused _ => false

theorem exists_of_isNext {o : Outcome} (h : isNext o = true) : ∃ t, o = .next t := by
  cases o with
  | next t => exact ⟨t, rfl⟩
  | fault f => cases h
  | refused r => cases h

/-- A scan in progress. -/
def scanningAt (buf : List Byte) (bp : Nat) (pending : List Request) : State :=
  { bench with fsm := .scanning, buf := buf, bp := bp, pending := pending }

/-- A latched Request, with nothing left in the buffer. -/
def dispatchingOn (r : Request) (pending : List Request) : State :=
  { bench with fsm := .dispatching, req := some r, pending := pending }

/-- A response of the block in TXBUF, for the Request it answers. -/
def respondingWith (resp : List Byte) (pending : List Request) : State :=
  { bench with fsm := .responding, req := some (req 4 2 0 126), resp := resp, pending := pending }

/-- The three-byte exception of P2, with its CRC. -/
def exception03 : List Byte := [0x02, 0x84, 0x03, 0xF3, 0x01]

theorem corrupted_noFrame : NoFrame corrupted := noFrame_of (by decide +kernel)

theorem no_reset_first : ∀ ms, bench.world ≠ .reset :: ms := nofun

theorem witness_CrcStepIsEightIterationsOfTheBitLoop :
    hi8 0x1234 = hi8 0x12FF ∧ lo8 0x1234 ^^^ (0x00 : Byte) = lo8 0x12FF ^^^ (0xCB : Byte) := by decide

theorem witness_DecodeExtractsTheFieldsOfAValidWindow :
    (literal.take 7).length ≠ 8 ∧ (literal ++ [0]).length ≠ 8 ∧
    crcCompute [0x02, 0x04, 0x00, 0x00, 0x00, 0x12] = (0x70 : Byte) ++ (0x34 : Byte) ∧
    crcCompute [0x02, 0x04, 0x00, 0x00, 0x00, 0x13] ≠ (0x70 : Byte) ++ (0x34 : Byte) := by decide +kernel

theorem witness_InvalidWindowAdvancesTheCursorByOneByte :
    (∀ ms, (scanningAt corrupted 0 []).world ≠ .reset :: ms) ∧ (scanningAt corrupted 0 []).fsm = .scanning ∧
    memRead 0 8 corrupted = some corrupted ∧ decodeRequest corrupted = none :=
  ⟨nofun, rfl, rfl, by decide +kernel⟩

theorem witness_ValidWindowIsYieldedAndCutFromTheBuffer :
    (∀ ms, (scanningAt (0xA5 :: literal) 1 []).world ≠ .reset :: ms) ∧ (scanningAt (0xA5 :: literal) 1 []).fsm = .scanning ∧
    memRead 1 8 (0xA5 :: literal) = some literal ∧ decodeRequest literal = some (req 4 2 0 18) :=
  ⟨nofun, rfl, rfl, by decide +kernel⟩

theorem witness_EndOfPassStepsBackAndRetainsTheTail :
    (∀ ms, (scanningAt (literal.take 7) 0 []).world ≠ .reset :: ms) ∧
    (scanningAt (literal.take 7) 0 []).fsm = .scanning ∧ (literal.take 7).length < 0 + 8 ∧
    (scanningAt (literal.take 7) 0 []).pending = [] ∧
    (∀ ms, (scanningAt corrupted 1 [req 4 2 0 18]).world ≠ .reset :: ms) ∧
    (scanningAt corrupted 1 [req 4 2 0 18]).fsm = .scanning ∧ corrupted.length < 1 + 8 ∧
    (scanningAt corrupted 1 [req 4 2 0 18]).pending = req 4 2 0 18 :: [] :=
  ⟨nofun, rfl, by decide, rfl, nofun, rfl, by decide, rfl⟩

theorem witness_FlushEmptiesTheReceiveBuffer :
    ({ bench with buf := [0x02, 0x04, 0x00, 0x00, 0x00] } : State).buf = [0x02, 0x04, 0x00, 0x00, 0x00] := rfl

/-- Also for `TwoFramesInOneFeedAreBothDecoded`. -/
theorem witness_FeedingIsIndependentOfTheChunking : State.reset.buf = [] := rfl

theorem witness_ShiftWindowIsEquivalentToTheFrameAssembler :
    ({ bench with buf := corrupted } : State).buf.length ≤ 8 ∧ NoFrame ({ bench with buf := corrupted } : State).buf :=
  ⟨by decide, corrupted_noFrame⟩

theorem witness_FeedingNothingChangesNeitherBufferNorCursor :
    ({ bench with buf := corrupted } : State).bp = 0 ∧ ({ bench with buf := corrupted } : State).buf.length ≤ 8 ∧
    NoFrame ({ bench with buf := corrupted } : State).buf := ⟨rfl, by decide, corrupted_noFrame⟩

/-- V-ASM-5: seven bytes of garbage. -/
theorem witness_FrameAfterGarbageIsRecoveredUnderTheProviso : bench.buf = [] ∧
    NoFrameBelow [0xA5, 0x5A, 0xFF, 0x00, 0x13, 0x37, 0x0D].length
      ([0xA5, 0x5A, 0xFF, 0x00, 0x13, 0x37, 0x0D] ++ requestFrame 2 4 0 18) := ⟨rfl, noFrameBelow_of (by decide +kernel)⟩

theorem witness_ValueSourceCallAppendsOneOrTwoRegisters :
    (0 : Word).toNat + (6 : Word).toNat ∈ bench.cfg.known ∧
    (fixture 90 [0xC0A66666]).oracle.reading = 0xC0A66666 :: [] ∧ (fixture 90 [0]).oracle.reading = 0 :: [] ∧
    (0xFFFF : Word).toNat + (0xFFFF : Word).toNat ∉ bench.cfg.known := ⟨by decide, rfl, rfl, by decide⟩

/-- Also for `EveryCallIsMadeAtTheRegisterItFills` and `AcceptedRequestPreparesTheNormalResponse`. -/
theorem witness_AssemblyEndsAtTheCountOrOneRegisterPastIt : (125 : Word) ≤ 125 ∧ (0 : Word) ≤ 125 := by decide

theorem witness_NormalResponseCarriesTheRegistersAndTheirCrc : (List.replicate 126 (0xBEEF : Word)).length ≤ 126 ∧
    (List.replicate 126 (0xBEEF : Word))[125]? = some 0xBEEF := by decide +kernel

theorem witness_OversizedBlocksAndNestedPollsAreRefused : (scanningAt [] 0 []).fsm ≠ .idle ∧
    127 < (List.replicate 128 (0 : Word)).length ∧ (List.replicate 127 (0 : Word)).length ≤ 127 := by decide +kernel

theorem witness_EveryResponseHasZeroResidueAndExceptionsSetBitSeven : ((0x80 : Byte) ≤ 0x80 ∧ (0x80 : Byte) ≤ 0xFF) ∧
    (∃ t, exec (.encNormal 2 4 []) bench = .next t) ∧ ∃ t, exec (.encException 2 6 1) bench = .next t :=
  ⟨by decide, ⟨_, rfl⟩, ⟨_, rfl⟩⟩

theorem witness_ThresholdIsThirtyEightBitTimesRoundedUp : bench.cfg.tickHz = none ∧ 0 < bench.cfg.baud ∧
    ({ bench with cfg := { bench.cfg with tickHz := some 1000000 } } : State).cfg.tickHz = some 1000000 := by decide

theorem witness_MarkMovesTheDeadlineAndExpiredComparesWithIt : bench.cfgSilence = 38 := rfl

/-- The deadline is in the future, and the gate returns exactly then. -/
theorem witness_GateReturnsAtAnyTimeNotBeforeTheDeadline : max ({ bench with deadline := 548 } : State).now 548 ≤ 548 ∧
    ({ bench with deadline := 548 } : State).oracle.gate = ⟨548 - max ({ bench with deadline := 548 } : State).now 548, []⟩ :: [] := by
  decide

theorem witness_SendGatesWritesOnceAndMarks : bench.oracle.gate = ⟨0, []⟩ :: [] ∧ bench.oracle.write = .ok 90 [] :: [] ∧
    100 = max bench.now bench.deadline + 0 ∧ 190 = 100 + 90 ∧
    ({ bench.oracle with write := [.fail 40 1 []] } : Oracle).write = .fail 40 1 [] :: [] := by decide

theorem witness_StatisticsCountEveryRequestOnce : StatsWf bench.stats ∧
    StatsWf ({ bench with stats := [(⟨1, 4, 0, 2⟩, 1), (⟨2, 4, 11, 1⟩, 2)] } : State).stats := by
  constructor <;> simp [StatsWf, bench, fixture, State.reset, Signature.key]

theorem witness_DispatchTestsUnitThenFunctionThenCount :
    (req 3 1 0 126).unitId ≠ bench.cfgUnitId ∧
    ((req 5 2 0 200).unitId = bench.cfgUnitId ∧ (req 5 2 0 200).functionCode ≠ 4) ∧
    ((req 4 2 0 126).unitId = bench.cfgUnitId ∧ (req 4 2 0 126).functionCode = 4 ∧ 125 < (req 4 2 0 126).count) ∧
    ((req 4 2 0 125).unitId = bench.cfgUnitId ∧ (req 4 2 0 125).functionCode = 4 ∧ (req 4 2 0 125).count ≤ 125) := by decide

theorem witness_EveryPollCompletesAndEndsInIdle : bench.fsm = .idle := rfl

theorem witness_ForeignRequestIsCountedAndIgnored : (dispatchingOn (req 4 1 0 2) []).pending = [] ∧
    (dispatchingOn (req 4 1 0 2) [req 4 2 0 1]).pending = req 4 2 0 1 :: [] := ⟨rfl, rfl⟩

theorem witness_RequestRowsDoWhatTheEnginesLoopDoes : (req 4 2 0 125).wellFormed = true ∧ (req 4 2 0 126).wellFormed = true ∧
    (req 0x84 2 0 2).wellFormed = true ∧ (req 3 1 0 126).wellFormed = true := by decide +kernel

theorem witness_ResponseRowsAreSentOnceAndReturn :
    ((List.replicate 126 (0 : Word)).length ≤ 126 ∧ ∃ frame, encode (.rspNormal 2 (List.replicate 126 0)) = some frame) ∧
    encode (.rspExcIllegalFunction 2 3) = some [0x02, 0x83, 0x01, 0x70, 0xF0] ∧
    encode (.rspExcIllegalDataValue 2) = some exception03 ∧
    (respondingWith exception03 []).pending = [] ∧ (respondingWith exception03 [req 4 2 0 1]).pending = req 4 2 0 1 :: [] :=
  ⟨⟨by decide +kernel, ⟨_, rfl⟩⟩, by decide +kernel, by decide +kernel, rfl, rfl⟩

theorem witness_DecodeOfEncodeIsTheInstruction :
    (Instr.reqReadInputRegisters 2 0 18).wellFormed 2 = true ∧ encode (.reqReadInputRegisters 2 0 18) = some literal ∧
    (Instr.rspExcIllegalDataValue 2).wellFormed 2 = true ∧ encode (.rspExcIllegalDataValue 2) = some exception03 := by
  decide +kernel

theorem witness_EncodeOfDecodeIsTheFrame : decode 2 literal = .ok (.reqReadInputRegisters 2 0 18) ∧
    decode 2 exception03 = .ok (.rspExcIllegalDataValue 2) := by decide +kernel

theorem witness_RequestRowsPartitionAllWindows : corrupted.length = 8 ∧
    (Instr.reqInvalid 2 4 0 0x13 0x70 0x34).wellFormed 2 = true ∧
    encode (.reqInvalid 2 4 0 0x13 0x70 0x34) = some corrupted := by decide +kernel

theorem witness_StepRunsTheDecodedInstruction :
    ({ bench with world := [.reset] } : State).world = .reset :: [] ∧
    ((∀ ms, (scanningAt corrupted 0 []).world ≠ .reset :: ms) ∧ (scanningAt corrupted 0 []).fsm = .scanning ∧
      memRead 0 8 corrupted = some corrupted ∧ decodeRequest corrupted = none ∧
      decodeWindow (scanningAt corrupted 0 []).cfgUnitId corrupted = some (.reqInvalid 2 4 0 0x13 0x70 0x34)) ∧
    ((∀ ms, (dispatchingOn (req 4 2 0 18) []).world ≠ .reset :: ms) ∧ (dispatchingOn (req 4 2 0 18) []).fsm = .dispatching ∧
      (dispatchingOn (req 4 2 0 18) []).req = some (req 4 2 0 18) ∧ (req 4 2 0 18).wellFormed = true ∧
      decodeWindow (dispatchingOn (req 4 2 0 18) []).cfgUnitId (req 4 2 0 18).raw = some (.reqReadInputRegisters 2 0 18)) ∧
    ((∀ ms, (respondingWith exception03 []).world ≠ .reset :: ms) ∧ (respondingWith exception03 []).fsm = .responding ∧
      decodeResponse (respondingWith exception03 []).resp = .ok (.rspExcIllegalDataValue 2)) :=
  ⟨rfl, ⟨nofun, rfl, rfl, by decide +kernel, by decide +kernel⟩, ⟨nofun, rfl, rfl, by decide +kernel, by decide +kernel⟩,
    nofun, rfl, by decide +kernel⟩

/-- A window, and a response, as table words. -/
theorem witness_PlacedTableWordIsRunByTheNextStep : (∀ ms, State.reset.world ≠ .reset :: ms) ∧
    State.reset.cfgUnitId = resetUnitId ∧ decodeTableWord 64 0x0204000000127034 = some (.reqForeign 2 4 0 18) ∧
    decodeTableWord 40 0x028403F301 = some (.rspExcIllegalDataValue 2) :=
  ⟨nofun, rfl, by decide +kernel, by decide +kernel⟩

theorem witness_PollReadsAtMostTheReportedBytes : bench.fsm = .idle ∧ bench.world = [] ∧
    ({ bench with world := [.poll, .reset] } : State).world = .poll :: [.reset] ∧
    bench.oracle.avail = .ok :: [] ∧ bench.oracle.read = .bytes 300 :: [] ∧
    ({ bench.oracle with avail := [.fail] } : Oracle).avail = .fail :: [] ∧
    ({ bench.oracle with read := [.fail []] } : Oracle).read = .fail [] :: [] := by decide

theorem witness_OutsideMovesBetweenPolls : bench.fsm = .idle ∧
    ({ bench with world := [.elapse 0] } : State).world = .elapse 0 :: [] ∧
    ({ bench with world := [.arrive [2]] } : State).world = .arrive [2] :: [] ∧
    ({ bench with world := [.writeUnitId 0xFF] } : State).world = .writeUnitId 0xFF :: [] ∧
    ({ bench with world := [.writeSilence 0] } : State).world = .writeSilence 0 :: [] ∧
    bench.running = false ∧ ({ bench with running := true } : State).running = true := ⟨rfl, rfl, rfl, rfl, rfl, rfl, rfl⟩

/-- A step in each state of the engine. -/
theorem witness_EngineStateMovesOnlyAlongItsTransitions :
    (bench.fsm = .idle ∧ ∃ t, step bench = .next t) ∧
    ((scanningAt literal 0 []).fsm = .scanning ∧ ∃ t, step (scanningAt literal 0 []) = .next t) ∧
    ((dispatchingOn (req 4 1 0 2) [req 4 2 0 1]).fsm = .dispatching ∧
      ∃ t, step (dispatchingOn (req 4 1 0 2) [req 4 2 0 1]) = .next t) ∧
    ((respondingWith exception03 []).fsm = .responding ∧ ∃ t, step (respondingWith exception03 []) = .next t) :=
  ⟨⟨rfl, exists_of_isNext (by decide +kernel)⟩, ⟨rfl, exists_of_isNext (by decide +kernel)⟩,
    ⟨rfl, exists_of_isNext (by decide +kernel)⟩, ⟨rfl, exists_of_isNext (by decide +kernel)⟩⟩

theorem witness_StepsOfAPollLeadToThePollsResult : bench.fsm = .idle ∧ bench.world = [] ∧ bench.ControlInv :=
  ⟨rfl, rfl, rfl, rfl, rfl⟩

theorem witness_NothingIsFatal : ({ bench with running := true } : State).running = true ∧
    ({ bench with running := true } : State).NoLateConfiguration := ⟨rfl, fun _ _ _ => ⟨nofun, nofun⟩⟩

theorem witness_StatisticsAreNeverReadBack : (∃ t, step (dispatchingOn (req 4 1 0 2) []) = .next t) ∧
    step { bench with running := true, world := [.writeUnitId 1] } = .refused .configurationWhileRunning :=
  ⟨exists_of_isNext (by decide +kernel), rfl⟩

/-- Inside a scan and outside one. -/
theorem witness_StepKeepsTheBufferBoundedAndFrameless :
    ((scanningAt literal 0 []).BufferInv ∧ ∃ t, step (scanningAt literal 0 []) = .next t) ∧
    (({ dispatchingOn (req 4 1 0 2) [] with buf := corrupted } : State).BufferInv ∧
      ∃ t, step { dispatchingOn (req 4 1 0 2) [] with buf := corrupted } = .next t) :=
  ⟨⟨⟨.inl rfl, nofun⟩, exists_of_isNext (by decide +kernel)⟩,
    ⟨rfl, by decide, corrupted_noFrame⟩, exists_of_isNext (by decide +kernel)⟩

theorem witness_StepKeepsTheEnginesRegistersConsistent :
    (respondingWith exception03 [req 4 2 0 1]).RequestInv ∧ (respondingWith exception03 [req 4 2 0 1]).LengthInv ∧
    (respondingWith exception03 [req 4 2 0 1]).ControlInv ∧ ∃ t, step (respondingWith exception03 [req 4 2 0 1]) = .next t := by
  refine ⟨⟨?_, ?_⟩, ⟨by decide, rfl, by decide⟩, ⟨nofun, .rspExcIllegalDataValue 2, by decide +kernel⟩, exists_of_isNext (by decide +kernel)⟩
  · intro r h
    cases List.mem_singleton.mp h
    decide +kernel
  · intro r h
    cases h
    decide +kernel

theorem witness_StepKeepsTheStatisticsExactAndGrowing :
    (dispatchingOn (req 4 1 0 2) []).StatsInv ∧ (∀ ms, (dispatchingOn (req 4 1 0 2) []).world ≠ .reset :: ms) ∧
    ∃ t, step (dispatchingOn (req 4 1 0 2) []) = .next t :=
  ⟨⟨⟨.nil, nofun⟩, rfl⟩, nofun, exists_of_isNext (by decide +kernel)⟩

/-- One transmission has ended at 510, and the next response is due. -/
theorem witness_StepKeepsTheSilenceBetweenTransmissions :
    ({ respondingWith exception03 [] with running := true, trace := [.tx [2] 100 510], deadline := 548 } : State).SilenceInv ∧
    ∃ t, step { respondingWith exception03 [] with running := true, trace := [.tx [2] 100 510], deadline := 548 } = .next t := by
  refine ⟨⟨?_, ?_, nofun⟩, exists_of_isNext (by decide +kernel)⟩
  · exact .cons nofun .nil
  · intro p h
    cases List.mem_singleton.mp h
    exact ⟨by decide, by decide⟩

theorem witness_OnlyTheResponseStepTransmits :
    (∃ t, step (respondingWith exception03 []) = .next t) ∧ ∀ ms, (respondingWith exception03 []).world ≠ .reset :: ms :=
  ⟨exists_of_isNext (by decide +kernel), nofun⟩

theorem witness_TimeRunsForwardAndConfigurationStays :
    (∃ t, step { respondingWith exception03 [] with running := true } = .next t) ∧
    ({ respondingWith exception03 [] with running := true } : State).running = true ∧
    ∀ ms, ({ respondingWith exception03 [] with running := true } : State).world ≠ .reset :: ms :=
  ⟨exists_of_isNext (by decide +kernel), rfl, nofun⟩

end Sys2Proof.Tests
end

section
/-! The CRC16 Codec (40_crc16.md R100 to R102): the bit loop and the folds as rules of their own, then O1 to O3. -/

namespace Sys2Proof.Machine

/-! ### The state each operation leaves -/

theorem exec_crcStep (acc : Word) (b : Byte) (s : State) :
    exec (.crcStep acc b) s = .next (setResult (.word (crcStep acc b)) s) := rfl

theorem exec_crcRaw (data : List Byte) (s : State) :
    exec (.crcRaw data) s = .next (setResult (.word (crcRaw data)) { s with crc := crcRaw data }) := rfl

theorem exec_crcCompute (data : List Byte) (s : State) :
    exec (.crcCompute data) s = .next (setResult (.word (crcCompute data)) { s with crc := crcRaw data }) := rfl

/-! ### One step of the codec -/

theorem crcBits_eq_iterate (k : Nat) (a : Word) : crcBits k a = crcShift^[k] a := by
  induction k generalizing a with
  | zero => rfl
  | succ k ih => rw [crcBits, ih, Function.iterate_succ_apply]

/-- R100: the zero-extended byte reaches the low half of the accumulator only. -/
theorem xor_setWidth_eq_be16 (acc : Word) (b : Byte) : acc ^^^ b.setWidth 16 = be16 (hi8 acc) (lo8 acc ^^^ b) := by
  have hr := word_split (be16 (hi8 acc) (lo8 acc ^^^ b))
  rw [hi8_be16, lo8_be16, BitVec.setWidth_xor, ← BitVec.xor_assoc, ← word_split acc] at hr
  exact hr.symm

theorem crcStep_eq_crcBits_be16 (acc : Word) (b : Byte) :
    crcStep acc b = crcBits 8 (be16 (hi8 acc) (lo8 acc ^^^ b)) := by
  rw [crcStep, xor_setWidth_eq_be16]

theorem crcStep_congr {acc acc' : Word} {b b' : Byte} (hhi : hi8 acc = hi8 acc')
    (hlo : lo8 acc ^^^ b = lo8 acc' ^^^ b') : crcStep acc b = crcStep acc' b' := by
  rw [crcStep_eq_crcBits_be16, crcStep_eq_crcBits_be16, hhi, hlo]

/-! ### Folds -/

theorem crcRaw_concat (data : List Byte) (b : Byte) : crcRaw (data ++ [b]) = crcStep (crcRaw data) b := by
  rw [crcRaw_append, List.foldl_cons, List.foldl_nil]

/-- The worked example of R101. -/
theorem crcRaw_example : crcRaw [0x02, 0x04, 0x00, 0x00, 0x00, 0x12] = 0x3470 := by decide +kernel

/-- R102: `CRC.COMPUTE` serialised high byte first, which is what the wire carries. -/
theorem bytesBe16_crcCompute (data : List Byte) :
    bytesBe16 (crcCompute data) = [lo8 (crcRaw data), hi8 (crcRaw data)] :=
  crcWire_eq data

theorem swapBytes_crcCompute (data : List Byte) : swapBytes (crcCompute data) = crcRaw data :=
  swapBytes_swapBytes (crcRaw data)

/-! ### The obligations -/

/-- Settles O1: `crcBits` is the iterate of `crcShift`, and a step sees the low half and the byte only through their XOR. -/
theorem crcStepIsEightIterationsOfTheBitLoop : Obligations.CrcStepIsEightIterationsOfTheBitLoop := by
  refine ⟨fun acc b s => ?_, by decide, fun _ _ _ _ => crcStep_congr, by decide⟩
  have hloop : crcStep acc b = crcShift^[8] (acc ^^^ b.setWidth 16) := crcBits_eq_iterate 8 _
  rw [exec_crcStep, hloop]
  rfl

/-- Settles O2: the fold over one more byte at the end is one more step. -/
theorem crcRawFoldsTheBytesFirstToLast : Obligations.CrcRawFoldsTheBytesFirstToLast :=
  ⟨exec_crcRaw, crcRaw_nil, crcRaw_concat, crcRaw_example⟩

/-- Settles O3: `CRC.COMPUTE` is the byte exchange of `CRC.RAW`, an involution. -/
theorem crcComputeExchangesTheBytes : Obligations.CrcComputeExchangesTheBytes := by
  refine ⟨exec_crcCompute, fun data => ⟨bytesBe16_crcCompute data, swapBytes_crcCompute data⟩, ?_, ?_⟩
  · rw [crcCompute, crcRaw_nil]
    decide
  · rw [crcCompute, crcRaw_example]
    decide

end Sys2Proof.Machine
end

section
/-! The Frame Assembler (41_frame_assembler.md R129): the greedy scan over a frame and over garbage, the state `ASM.FLUSH` and
`ENG.XFAIL` leave, then O12. -/

namespace Sys2Proof.Machine

/-! ### The greedy scan, part by part -/

/-- The byte before the cursor is of no account for what a scan yields. -/
theorem restOf_requests (tail x : List Byte) : (restOf tail x).1 = greedyScan x :=
  (greedyFrom_restOf x.length 0 x tail (by omega)).symm

theorem feed_requests_greedyScan (chunk : List Byte) (s : State) : (feed chunk s).1 = greedyScan (s.buf ++ chunk) := by
  rw [feed_requests, restOf_requests]

theorem greedyScan_short {x : List Byte} (h : x.length < 8) : greedyScan x = [] := by
  rw [← restOf_requests [], restOf_short h]

theorem greedyScan_frame_append (u f : Byte) (a n : Word) (z : List Byte) :
    greedyScan (requestFrame u f a n ++ z) = Request.ofFields u f a n :: greedyScan z := by
  have hd : decodeRequest ((requestFrame u f a n ++ z).take 8) = some (Request.ofFields u f a n) :=
    decodeRequest_requestFrame u f a n
  rw [← restOf_requests [], restOf_frame hd, restOf_requests]
  rfl

theorem greedyScan_frame (u f : Byte) (a n : Word) : greedyScan (requestFrame u f a n) = [Request.ofFields u f a n] :=
  greedyScan_frame_append u f a n []

/-- A first byte at which no frame begins is noise (R124). -/
theorem greedyScan_cons {b : Byte} {x : List Byte} (h : decodeRequest ((b :: x).take 8) = none) :
    greedyScan (b :: x) = greedyScan x := by
  by_cases hl : (b :: x).length < 8
  · rw [greedyScan_short hl, greedyScan_short (Nat.lt_of_succ_lt hl)]
  · rw [← restOf_requests [], restOf_noise (Nat.le_of_not_lt hl) h, restOf_requests]
    rfl

/-- `noFrameBelow_of` both ways: a window cut short by the end of the stream is no frame either (R144). -/
theorem noFrameBelow_iff {n : Nat} {x : List Byte} :
    NoFrameBelow n x ↔ ∀ p, p < n → decodeRequest ((x.drop p).take 8) = none := by
  refine ⟨fun h p hp => ?_, noFrameBelow_of⟩
  by_cases hl : p + 8 ≤ x.length
  · exact h p _ hp (memRead_of_le hl)
  · exact decodeRequest_of_length_ne (by simp; omega)

/-- Bytes at none of which a frame begins are noise (R133, R134). -/
theorem greedyScan_garbage_append {g z : List Byte} (h : NoFrameBelow g.length (g ++ z)) :
    greedyScan (g ++ z) = greedyScan z := by
  rw [noFrameBelow_iff] at h
  induction g with
  | nil => rfl
  | cons b g ih =>
    have hfirst : decodeRequest ((b :: (g ++ z)).take 8) = none := h 0 (Nat.succ_pos _)
    have hrest : greedyScan (g ++ z) = greedyScan z := ih fun p hp => h (p + 1) (Nat.succ_lt_succ hp)
    exact (greedyScan_cons hfirst).trans hrest

/-! ### The flush -/

theorem exec_asmFlush (s : State) : exec .asmFlush s = .next (setResult .unit (flush s)) := rfl

theorem exec_engXfail (side : Side) (s : State) :
    exec (.engXfail side) s = .next (setResult .unit (transportFailure s)) := rfl

/-! ### The example of R129 -/

/-- The first frame of the example, of which the first five bytes arrive before the flush. -/
theorem requestFrame_count2_at0 :
    requestFrame 2 4 0 2 = [0x02, 0x04, 0x00, 0x00, 0x00] ++ [0x02, 0x71, 0xF8] := by decide +kernel

theorem requestFrame_count2_at12 :
    requestFrame 2 4 12 2 = [0x02, 0x04, 0x00, 0x0C, 0x00, 0x02, 0xB1, 0xFB] := by decide +kernel

/-- The rest of the frame, without its beginning, is noise. -/
theorem greedyScan_frameRest_append :
    greedyScan ([0x02, 0x71, 0xF8] ++ requestFrame 2 4 12 2) = [Request.ofFields 2 4 12 2] := by
  rw [greedyScan_garbage_append (noFrameBelow_of (by decide +kernel)), greedyScan_frame]

/-- Settles O12: in the example the frame's rest is noise after the flush, and completes the retained bytes without it. -/
theorem flushEmptiesTheReceiveBuffer : Obligations.FlushEmptiesTheReceiveBuffer := by
  refine ⟨exec_asmFlush, fun side s => ⟨_, exec_engXfail side s, rfl, rfl⟩, fun s hbuf => ?_⟩
  have hchunk : ([0x02, 0x71, 0xF8, 0x02, 0x04, 0x00, 0x0C, 0x00, 0x02, 0xB1, 0xFB] : List Byte) =
      [0x02, 0x71, 0xF8] ++ requestFrame 2 4 12 2 := by rw [requestFrame_count2_at12]; rfl
  rw [hchunk, feed_requests_greedyScan, feed_requests_greedyScan, flush_buf, List.nil_append, hbuf, ← List.append_assoc,
    ← requestFrame_count2_at0]
  constructor
  · exact greedyScan_frameRest_append
  · rw [greedyScan_frame_append, greedyScan_frame]

end Sys2Proof.Machine
end

section
/-! The Request Decoder (42_request_decoder.md R140 to R144): when a window is a frame, the accumulator `DEC.DECODE` leaves, and
the state it leaves, then O8. -/

namespace Sys2Proof.Machine

/-! ### The answer, by the CRC of the first six bytes -/

theorem crcVerify_iff (data : List Byte) (expected : Word) :
    crcVerify data expected = true ↔ crcCompute data = expected := beq_iff_eq

theorem decodeRequest_of_crcCompute_eq {u f aHi aLo nHi nLo c6 c7 : Byte}
    (h : crcCompute [u, f, aHi, aLo, nHi, nLo] = be16 c6 c7) :
    decodeRequest [u, f, aHi, aLo, nHi, nLo, c6, c7] =
      some { unitId := u, functionCode := f, address := be16 aHi aLo, count := be16 nHi nLo,
             raw := [u, f, aHi, aLo, nHi, nLo, c6, c7] } := by
  rw [decodeRequest, if_pos ((crcVerify_iff ..).mpr h)]

theorem decodeRequest_of_crcCompute_ne {u f aHi aLo nHi nLo c6 c7 : Byte}
    (h : crcCompute [u, f, aHi, aLo, nHi, nLo] ≠ be16 c6 c7) :
    decodeRequest [u, f, aHi, aLo, nHi, nLo, c6, c7] = none := by
  rw [decodeRequest, if_neg (mt (crcVerify_iff ..).mp h)]

/-! ### The CRC working accumulator -/

/-- The length check comes before the CRC computation begins (R140). -/
theorem crcAfterDecode_of_length_ne {w : List Byte} (h : w.length ≠ 8) (crc : Word) : crcAfterDecode w crc = crc :=
  if_neg h

theorem crcAfterDecode_of_length_eight {w : List Byte} (h : w.length = 8) (crc : Word) :
    crcAfterDecode w crc = crcRaw (w.take 6) :=
  if_pos h

/-! ### The state `DEC.DECODE` leaves -/

theorem exec_decDecode (w : List Byte) (s : State) : exec (.decDecode w) s = execDecDecode w s := rfl

theorem exec_decDecode_of_some {w : List Byte} {r : Request} (h : decodeRequest w = some r) (s : State) :
    exec (.decDecode w) s = .next (setResult (.request r) { s with crc := crcRaw (w.take 6) }) := by
  rw [exec_decDecode, execDecDecode, h, ← crcAfterDecode_of_length_eight (length_of_decodeRequest h) s.crc]

theorem exec_decDecode_of_none {w : List Byte} (h : decodeRequest w = none) (s : State) :
    exec (.decDecode w) s = .next (setResult .invalid { s with crc := crcAfterDecode w s.crc }) := by
  rw [exec_decDecode, execDecDecode, h]

/-- Settles O8: the length decides whether the accumulator is written, the CRC which answer an 8-byte window gets. -/
theorem decodeExtractsTheFieldsOfAValidWindow : Obligations.DecodeExtractsTheFieldsOfAValidWindow := by
  refine ⟨fun w s hlen => ?_, fun u f aHi aLo nHi nLo c6 c7 s => ⟨fun hcrc => ?_, fun hcrc => ?_⟩⟩
  · rw [exec_decDecode_of_none (decodeRequest_of_length_ne hlen), crcAfterDecode_of_length_ne hlen]
    rfl
  · exact exec_decDecode_of_some (decodeRequest_of_crcCompute_eq hcrc) s
  · rw [exec_decDecode_of_none (decodeRequest_of_crcCompute_ne hcrc), crcAfterDecode_of_length_eight rfl]
    rfl

end Sys2Proof.Machine
end

section
/-! The Response Encoder (44_response_encoder.md R165 to R169): the frames with their CRC written out, where a register stands
in a normal response, and the state each operation leaves, then O22 and O24. -/

namespace Sys2Proof.Machine

/-! ### The frames, with the CRC as the accumulator's two bytes (R168) -/

theorem normalFrame_eq (u f : Byte) (regs : List Word) : normalFrame u f regs =
    normalBody u f regs ++ [lo8 (crcRaw (normalBody u f regs)), hi8 (crcRaw (normalBody u f regs))] := by
  rw [normalFrame, crcWire_eq]

theorem exceptionFrame_eq (u f e : Byte) : exceptionFrame u f e =
    exceptionBody u f e ++ [lo8 (crcRaw (exceptionBody u f e)), hi8 (crcRaw (exceptionBody u f e))] := by
  rw [exceptionFrame, crcWire_eq]

/-! ### Where a register stands (R167) -/

theorem bytesOfRegs_getElem? {regs : List Word} {i : Nat} {v : Word} (h : regs[i]? = some v) :
    (bytesOfRegs regs)[2 * i]? = some (hi8 v) ∧ (bytesOfRegs regs)[2 * i + 1]? = some (lo8 v) := by
  induction regs generalizing i with
  | nil => cases h
  | cons w regs ih =>
    cases i with
    | zero =>
      cases h
      exact ⟨rfl, rfl⟩
    | succ i =>
      rw [bytesOfRegs_cons]
      exact ih h

theorem normalBody_getElem?_add_three (u f : Byte) (regs : List Word) (k : Nat) :
    (normalBody u f regs)[k + 3]? = (bytesOfRegs regs)[k]? := rfl

theorem normalBody_getElem? (u f : Byte) {regs : List Word} {i : Nat} {v : Word} (h : regs[i]? = some v) :
    (normalBody u f regs)[3 + 2 * i]? = some (hi8 v) ∧ (normalBody u f regs)[4 + 2 * i]? = some (lo8 v) := by
  have hlo : 4 + 2 * i = 2 * i + 1 + 3 := by omega
  rw [Nat.add_comm 3, hlo, normalBody_getElem?_add_three, normalBody_getElem?_add_three]
  exact bytesOfRegs_getElem? h

/-! ### The state each operation leaves -/

theorem exec_encNormal {regs : List Word} (h : regs.length ≤ maxEncodable) (u f : Byte) (s : State) :
    exec (.encNormal u f regs) s = .next (setResult (.bytes (normalFrame u f regs)) (encodeNormal u f regs s)) :=
  if_neg (Nat.not_lt.mpr h)

theorem exec_encException (u f e : Byte) (s : State) : exec (.encException u f e) s =
    .next (setResult (.bytes (exceptionFrame u f e)) (encodeException u f e s)) := rfl

/-! ### The obligations -/

/-- Settles O22: the body is `normalBody`, whose length and register positions are those of `bytesOfRegs` after the header. -/
theorem normalResponseCarriesTheRegistersAndTheirCrc : Obligations.NormalResponseCarriesTheRegistersAndTheirCrc := by
  intro u f regs s hlen
  have hmax : regs.length ≤ maxEncodable := Nat.le_succ_of_le hlen
  refine ⟨normalBody u f regs, rfl, ?_, ?_, byteCount_toNat hmax, fun i v => normalBody_getElem? u f⟩
  · rw [exec_encNormal hmax, encodeNormal, normalFrame_eq]
    rfl
  · rw [← normalFrame_eq, normalFrame_length]

/-- Settles O24: the body is `exceptionBody`; the examples are those of R169. -/
theorem exceptionResponseSetsBitSevenOfTheFunction : Obligations.ExceptionResponseSetsBitSevenOfTheFunction := by
  intro u f e s
  refine ⟨?_, by decide +kernel, by decide +kernel⟩
  rw [exec_encException, encodeException, exceptionFrame_eq]
  rfl

end Sys2Proof.Machine
end

section
/-! The Slave Engine (46_slave_engine.md R206 to R209, R215): what `ENG.DISPATCH` does with each kind of Request, and where the
loop of `ENG.POLL` can go, then O31 and O35. -/

namespace Sys2Proof.Machine

/-! ### The three tests of `ENG.DISPATCH` (R206) -/

theorem unitMatch_eq_decide (r : Request) (s : State) : unitMatch r s = decide (r.unitId = s.cfgUnitId) := rfl

theorem fnOk_eq_decide (r : Request) : fnOk r = decide (r.functionCode = fnReadInput) := rfl

theorem countOk_eq_decide (r : Request) : countOk r = decide (r.count ≤ maxCount) := rfl

@[simp] theorem encodeNormal_resp (u f : Byte) (regs : List Word) (s : State) :
    (encodeNormal u f regs s).resp = normalFrame u f regs := rfl

@[simp] theorem encodeException_resp (u f e : Byte) (s : State) :
    (encodeException u f e s).resp = exceptionFrame u f e := rfl

/-! ### `ENG.DISPATCH`, by kind of Request -/

theorem dispatch_of_foreign {r : Request} {s : State} (hunit : r.unitId ≠ s.cfgUnitId) : dispatch r s = (none, s) := by
  simp [dispatch, unitMatch_eq_decide, hunit]

theorem dispatch_of_unsupported {r : Request} {s : State} (hunit : r.unitId = s.cfgUnitId)
    (hfn : r.functionCode ≠ fnReadInput) : dispatch r s =
      (some (exceptionFrame r.unitId r.functionCode excIllegalFunction),
        encodeException r.unitId r.functionCode excIllegalFunction s) := by
  simp [dispatch, unitMatch_eq_decide, fnOk_eq_decide, hunit, hfn]

theorem dispatch_of_oversized {r : Request} {s : State} (hunit : r.unitId = s.cfgUnitId)
    (hfn : r.functionCode = fnReadInput) (hcount : maxCount < r.count) : dispatch r s =
      (some (exceptionFrame r.unitId fnReadInput excIllegalDataValue),
        encodeException r.unitId fnReadInput excIllegalDataValue s) := by
  simp [dispatch, unitMatch_eq_decide, fnOk_eq_decide, countOk_eq_decide, hunit, hfn, hcount]

theorem dispatch_of_accepted {r : Request} {s : State} (hunit : r.unitId = s.cfgUnitId)
    (hfn : r.functionCode = fnReadInput) (hcount : r.count ≤ maxCount) : dispatch r s =
      (some (normalFrame r.unitId fnReadInput (assemble r.address r.count s).regs),
        encodeNormal r.unitId fnReadInput (assemble r.address r.count s).regs (assemble r.address r.count s)) := by
  simp [dispatch, unitMatch_eq_decide, fnOk_eq_decide, countOk_eq_decide, hunit, hfn, hcount]

/-! ### The state each operation leaves -/

theorem exec_engDispatch_of_none {r : Request} {s t : State} (h : dispatch r s = (none, t)) :
    exec (.engDispatch r) s = .next (setResult .noResponse t) := by
  show execEngDispatch r s = _
  rw [execEngDispatch, h]

theorem exec_engDispatch_of_some {r : Request} {s t : State} {resp : List Byte} (h : dispatch r s = (some resp, t)) :
    exec (.engDispatch r) s = .next (setResult (.bytes resp) t) := by
  show execEngDispatch r s = _
  rw [execEngDispatch, h]

theorem exec_engAssemble (address count : Word) (s : State) : exec (.engAssemble address count) s =
    .next (setResult (.words (assemble address count s).regs) (assemble address count s)) := rfl

theorem exec_engPoll_of_idle {s : State} (h : s.fsm = .idle) : exec .engPoll s = .next (setResult .unit (poll s)) :=
  if_pos h

/-! ### Where a poll ends -/

/-- One round of the loop of `ENG.POLL` (R201) leads to the rest of the Requests, or to `ENG.XFAIL` if the write failed. -/
theorem serveAll_cons_cases (r : Request) (rs : List Request) (s : State) :
    ∃ t, serveAll (r :: rs) s = serveAll rs t ∨ serveAll (r :: rs) s = transportFailure t := by
  rw [serveAll]
  rcases dispatch r (countRequest r { latchRequest r s with pending := rs }) with ⟨_ | resp, t⟩
  · exact ⟨{ t with req := none }, .inl rfl⟩
  · dsimp only
    rcases send resp { t with fsm := .responding } with ⟨_ | _, u⟩
    · exact ⟨u, .inr rfl⟩
    · exact ⟨{ u with req := none }, .inl rfl⟩

@[simp] theorem transportFailure_fsm (s : State) : (transportFailure s).fsm = .idle := rfl

@[simp] theorem serveAll_fsm (rs : List Request) (s : State) : (serveAll rs s).fsm = .idle := by
  induction rs generalizing s with
  | nil => rfl
  | cons r rs ih =>
    obtain ⟨t, hnext | hfail⟩ := serveAll_cons_cases r rs s
    · rw [hnext, ih]
    · rw [hfail, transportFailure_fsm]

@[simp] theorem poll_fsm (s : State) : (poll s).fsm = .idle := by
  rw [poll]
  rcases readChunk s with ⟨_ | chunk, t⟩
  · exact transportFailure_fsm t
  · exact serveAll_fsm _ _

/-! ### The obligations -/

/-- Settles O31: one kind of Request for each case; the block of an accepted one is that of `assemble_spec`. -/
theorem dispatchTestsUnitThenFunctionThenCount : Obligations.DispatchTestsUnitThenFunctionThenCount := by
  refine fun r s => ⟨fun hunit => ?_, fun hunit hfn => ?_, fun hunit hfn hcount => ?_, fun hunit hfn hcount => ?_⟩
  · exact exec_engDispatch_of_none (dispatch_of_foreign hunit)
  · exact exec_engDispatch_of_some (dispatch_of_unsupported hunit hfn)
  · exact exec_engDispatch_of_some (dispatch_of_oversized hunit hfn hcount)
  · obtain ⟨oracle, draws, regs, off, calls, hblock, hcalls, hoff, hmin, hmax⟩ :=
      assemble_spec r.address r.count hcount s
    refine ⟨regs, off, oracle, draws, calls, ?_, ?_, hoff, hmin, hmax, hcalls⟩
    · rw [exec_engDispatch_of_some (dispatch_of_accepted hunit hfn hcount), hblock]
      rfl
    · rw [exec_engAssemble, hblock]
      rfl

/-- Settles O35: whatever a poll reads and writes, it ends in `Idle`, which is all that the next one asks for (R201). -/
theorem everyPollCompletesAndEndsInIdle : Obligations.EveryPollCompletesAndEndsInIdle := by
  intro s hidle
  have hend : (setResult .unit (poll s)).fsm = .idle := poll_fsm s
  exact ⟨_, exec_engPoll_of_idle hidle, hend, _, exec_engPoll_of_idle hend⟩

end Sys2Proof.Machine
end

section
/-! The Frame Assembler (41_frame_assembler.md R121 to R135): a feed as the scan of the whole buffer, the shift window as the same
scan, byte by byte, and a frame behind garbage, then O14, O15, O13, O16, O17 and O18. -/

namespace Sys2Proof.Machine

/-! ### A feed is the scan of what was retained and the chunk -/

/-- R121: the state `ASM.FEED` leaves, by the scan. -/
theorem exec_asmFeed (chunk : List Byte) (s : State) : exec (.asmFeed chunk) s = .next { s with
    buf := (restOf [] (s.buf ++ chunk)).2, bp := 0, crc := (feed chunk s).2.crc,
    ret := .requests (restOf [] (s.buf ++ chunk)).1 } := by
  rw [← feed_requests, ← feed_buf]
  rfl

/-- R130: the scan of a stream yields what the scan of its front yields, then what is found in what that retains and the rest. -/
theorem greedyScan_append (x z : List Byte) :
    greedyScan (x ++ z) = (restOf [] x).1 ++ greedyScan ((restOf [] x).2 ++ z) := by
  rw [← restOf_requests [] (x ++ z), restOf_append z [] x (.inl rfl), restOf_requests [] ((restOf [] x).2 ++ z)]

theorem feedAll_greedyScan (chunks : List (List Byte)) (s : State) :
    (feedAll chunks s).1 ++ greedyScan (feedAll chunks s).2.buf = greedyScan (s.buf ++ chunks.flatten) := by
  induction chunks generalizing s with
  | nil => simp [feedAll]
  | cons c cs ih =>
    calc (feedAll (c :: cs) s).1 ++ greedyScan (feedAll (c :: cs) s).2.buf
        = (feed c s).1 ++ ((feedAll cs (feed c s).2).1 ++ greedyScan (feedAll cs (feed c s).2).2.buf) :=
          List.append_assoc ..
      _ = (restOf [] (s.buf ++ c)).1 ++ greedyScan ((restOf [] (s.buf ++ c)).2 ++ cs.flatten) := by
          rw [ih, feed_requests, feed_buf]
      _ = greedyScan (s.buf ++ (c :: cs).flatten) := by
          rw [← greedyScan_append, List.flatten_cons, List.append_assoc]

/-- What a scan retains holds no frame that another scan would find (R131). -/
theorem greedyScan_retained (x : List Byte) : greedyScan (restOf [] x).2 = [] := by
  obtain ⟨hlen, hnone⟩ := restOf_retained [] x (.inl rfl)
  rw [← restOf_requests [], restOf_of_noFrame hlen hnone]

theorem greedyScan_feedAll_buf (chunks : List (List Byte)) (s : State) (h : greedyScan s.buf = []) :
    greedyScan (feedAll chunks s).2.buf = [] := by
  induction chunks generalizing s with
  | nil => exact h
  | cons c cs ih => exact ih _ (by rw [feed_buf]; exact greedyScan_retained _)

/-! ### The shift window (R132) -/

theorem shiftByte_of_length {win : List Byte} (b : Byte) (h : win.length < 7) : shiftByte b win = ([], win ++ [b]) := by
  have h8 : win.length ≠ frameLen := by simp only [frameLen]; omega
  have h7 : (win ++ [b]).length ≠ frameLen := by simp [frameLen]; omega
  simp only [shiftByte, if_neg h8, if_neg h7]

/-- A scan of 8 bytes that are a frame: they are gone. -/
theorem restOf_of_frame {w : List Byte} {r : Request} (tail : List Byte) (h : decodeRequest w = some r) :
    restOf tail w = ([r], []) := by
  have hlen : w.length = 8 := length_of_decodeRequest h
  have htake : w.take 8 = w := List.take_of_length_le (Nat.le_of_eq hlen)
  have hdrop : w.drop 8 = [] := List.drop_eq_nil_of_le (Nat.le_of_eq hlen)
  rw [restOf_frame (htake.symm ▸ h), hdrop, restOf_short (by simp)]
  rfl

/-- A scan of 8 bytes that are no frame: they are retained (R125). -/
theorem restOf_of_noise {w : List Byte} (tail : List Byte) (hlen : w.length = 8) (h : decodeRequest w = none) :
    restOf tail w = ([], w) := by
  have htake : w.take 8 = w := List.take_of_length_le (Nat.le_of_eq hlen)
  rw [restOf_noise (by omega) (htake.symm ▸ h), restOf_short (by simp; omega), List.take_append_drop]

/-- A byte that fills the window: it is tested as a scan tests it. -/
theorem shiftByte_of_full {win w : List Byte} (b : Byte) (tail : List Byte)
    (h : win.length = 7 ∧ w = win ++ [b] ∨ win.length = 8 ∧ w = win.drop 1 ++ [b]) : shiftByte b win = restOf tail w := by
  have hlen : w.length = 8 := by rcases h with ⟨hl, rfl⟩ | ⟨hl, rfl⟩ <;> simp [hl]
  have hnext : (if win.length = frameLen then win.drop 1 ++ [b] else win ++ [b]) = w := by
    rcases h with ⟨hl, rfl⟩ | ⟨hl, rfl⟩ <;> simp [hl, frameLen]
  simp only [shiftByte, hnext, if_pos (show w.length = frameLen from hlen)]
  cases hd : decodeRequest w with
  | some r => rw [restOf_of_frame tail hd]
  | none => rw [restOf_of_noise tail hlen hd]

/-- One byte into the window is the scan of the bytes it holds and that byte. -/
theorem shiftByte_restOf {win : List Byte} (b : Byte) (hlen : win.length ≤ 8) (hnone : NoFrame win) :
    shiftByte b win = restOf [] (win ++ [b]) := by
  rcases (by omega : win.length < 7 ∨ win.length = 7 ∨ win.length = 8) with h | h | h
  · rw [shiftByte_of_length b h, restOf_short (by simp; omega), List.nil_append]
  · exact shiftByte_of_full b [] (.inl ⟨h, rfl⟩)
  · have hfirst : decodeRequest ((win ++ [b]).take 8) = none := by
      rw [List.take_append_of_le_length (Nat.le_of_eq h.symm)]
      exact hnone 0 _ (memRead_of_le (by simp [frameLen, h]))
    have hshift : (win ++ [b]).drop 1 = win.drop 1 ++ [b] := List.drop_append_of_le_length (by omega)
    rw [restOf_noise (by simp; omega) hfirst, hshift]
    exact shiftByte_of_full b _ (.inr ⟨h, rfl⟩)

theorem shiftBytes_restOf (chunk : List Byte) {win : List Byte} (hlen : win.length ≤ 8) (hnone : NoFrame win) :
    shiftBytes chunk win = restOf [] (win ++ chunk) := by
  induction chunk generalizing win with
  | nil => rw [List.append_nil, restOf_of_noFrame hlen hnone, shiftBytes]
  | cons b bs ih =>
    obtain ⟨hlen', hnone'⟩ := restOf_retained [] (win ++ [b]) (.inl rfl)
    rw [List.append_cons, restOf_append bs [] (win ++ [b]) (.inl rfl), ← ih hlen' hnone', shiftBytes,
      shiftByte_restOf b hlen hnone]

/-! ### Frames at the front of a stream, and behind garbage -/

theorem restOf_frame_append (tail : List Byte) (u f : Byte) (a n : Word) (z : List Byte) :
    restOf tail (requestFrame u f a n ++ z) = (Request.ofFields u f a n :: (restOf [] z).1, (restOf [] z).2) :=
  restOf_frame (rest := requestFrame u f a n ++ z) (decodeRequest_requestFrame u f a n)

theorem restOf_nil : restOf [] [] = ([], []) := restOf_short (by simp) []

/-- R128, R133: a frame that ends the stream leaves nothing behind. -/
theorem restOf_requestFrame (tail : List Byte) (u f : Byte) (a n : Word) :
    restOf tail (requestFrame u f a n) = ([Request.ofFields u f a n], []) := by
  have h := restOf_frame_append tail u f a n []
  rwa [List.append_nil, restOf_nil] at h

theorem restOf_garbage_append {g : List Byte} {u f : Byte} {a n : Word}
    (h : NoFrameBelow g.length (g ++ requestFrame u f a n)) (tail : List Byte) :
    restOf tail (g ++ requestFrame u f a n) = ([Request.ofFields u f a n], []) := by
  rw [noFrameBelow_iff] at h
  induction g generalizing tail with
  | nil => exact restOf_requestFrame tail u f a n
  | cons b g ih =>
    have hfirst : decodeRequest ((b :: g ++ requestFrame u f a n).take 8) = none := h 0 (Nat.succ_pos _)
    rw [restOf_noise (by simp) hfirst]
    exact ih (fun p hp => h (p + 1) (Nat.succ_lt_succ hp)) _

/-! ### The counterexample of R133: seven zero bytes and the high byte of their CRC are a frame -/

theorem counterexample_stream : ([0, 0, 0, 0, 0, 0, 0, 0x1B, 0x04, 0x00, 0x00, 0x00, 0x02, 0x73, 0xF1] : List Byte) =
    requestFrame 0 0 0 0 ++ [0x04, 0x00, 0x00, 0x00, 0x02, 0x73, 0xF1] := by decide +kernel

theorem counterexample_frame : ([0x1B, 0x04, 0x00, 0x00, 0x00, 0x02, 0x73, 0xF1] : List Byte) = requestFrame 0x1B 4 0 2 := by
  decide +kernel

/-! ### The obligations -/

/-- Settles O14, by induction over the chunks: what a feed retains and the rest of the stream are scanned like the whole. -/
theorem feedingIsIndependentOfTheChunking : Obligations.FeedingIsIndependentOfTheChunking := by
  refine ⟨fun chunk s => rfl, fun chunks s hbuf => ?_⟩
  have hend : greedyScan (feedAll chunks s).2.buf = [] :=
    greedyScan_feedAll_buf chunks s (by rw [hbuf, greedyScan_short (by simp)])
  have h := feedAll_greedyScan chunks s
  rwa [hend, List.append_nil, hbuf, List.nil_append] at h

/-- Settles O15: one byte into the window, and a whole feed, are both the scan of the bytes held and those that come. -/
theorem shiftWindowIsEquivalentToTheFrameAssembler : Obligations.ShiftWindowIsEquivalentToTheFrameAssembler := by
  intro chunk s hlen hnone
  rw [shiftBytes_restOf chunk hlen hnone, feed_requests, feed_buf]

/-- Settles O13: the four facts about what a scan yields and retains. -/
theorem feedLeavesAtMostEightBytesAndNoFrame : Obligations.FeedLeavesAtMostEightBytesAndNoFrame := by
  intro chunk s
  obtain ⟨hlen, hnone⟩ := restOf_retained [] (s.buf ++ chunk) (.inl rfl)
  have hbytes := restOf_length_le [] (s.buf ++ chunk)
  rw [List.length_append, List.length_nil, Nat.zero_add] at hbytes
  exact ⟨_, _, _, exec_asmFeed chunk s, hlen, hnone, restOf_wellFormed _ _, hbytes⟩

/-- Settles O16: what a feed may retain is retained again. -/
theorem feedingNothingChangesNeitherBufferNorCursor : Obligations.FeedingNothingChangesNeitherBufferNorCursor := by
  intro s hbp hlen hnone
  refine ⟨(feed [] s).2.crc, ?_⟩
  rw [exec_asmFeed, List.append_nil, restOf_of_noFrame hlen hnone, ← hbp]

/-- Settles O17: each of the two frames stands at the cursor when the one before it is gone. -/
theorem twoFramesInOneFeedAreBothDecoded : Obligations.TwoFramesInOneFeedAreBothDecoded := by
  refine ⟨fun u f u' f' a n a' n' s hbuf => ?_, fun chunk s => ?_⟩
  · refine ⟨(feed (requestFrame u f a n ++ requestFrame u' f' a' n') s).2.crc, ?_⟩
    rw [exec_asmFeed, hbuf, List.nil_append, restOf_frame_append, restOf_requestFrame, ← hbuf]
  · have hbytes := restOf_length_le [] (s.buf ++ chunk)
    rw [List.length_append, List.length_nil, ← feed_requests] at hbytes
    omega

/-- Settles O18: the garbage is passed over byte by byte; in the counterexample its seven bytes and one more are a frame. -/
theorem frameAfterGarbageIsRecoveredUnderTheProviso : Obligations.FrameAfterGarbageIsRecoveredUnderTheProviso := by
  refine ⟨fun g u f a n s hbuf hnone => ?_, fun s hbuf => ?_⟩
  · rw [feed_requests, feed_buf, hbuf, List.nil_append, restOf_garbage_append hnone]
    exact ⟨rfl, rfl⟩
  · rw [feed_requests, feed_buf, hbuf, List.nil_append, counterexample_stream, restOf_frame_append, counterexample_frame,
      restOf_short (by simp)]
    exact ⟨rfl, rfl, decodeRequest_requestFrame _ _ _ _⟩

end Sys2Proof.Machine
end

section
/-! Encodings (30_encoding.md R71 to R84): decoding, by the length of the frame; then O42, O43, O44 and O45. -/

namespace Sys2Proof

open Sys2Proof.Machine

/-! ### The decoder, by the length of the frame -/

theorem decode_of_window {unit : Byte} {w : List Byte} {i : Instr} (h : decodeWindow unit w = some i) :
    decode unit w = .ok i := by
  simp only [decode, h]

/-- R84: 8 bytes are a request window, and any other number is read as a response (R81). -/
theorem decode_of_length_ne {unit : Byte} {bytes : List Byte} (h : bytes.length ≠ 8) :
    decode unit bytes = decodeResponse bytes := by
  simp only [decode, decodeWindow_of_length_ne h]

theorem decode_requestFrame (unit u f : Byte) (a n : Word) :
    decode unit (requestFrame u f a n) = .ok ((Request.ofFields u f a n).row unit) :=
  decode_of_window (decodeWindow_of_valid (decodeRequest_requestFrame u f a n))

/-! ### Windows that are no frame -/

theorem decodeRequest_requestBody_append (u f : Byte) (a n : Word) (lo hi : Byte) :
    decodeRequest (requestBody u f a n ++ [lo, hi]) = none ↔ crcWire (requestBody u f a n) ≠ [lo, hi] := by
  have hbody : requestBody u f a n = [u, f, hi8 a, lo8 a, hi8 n, lo8 n] := rfl
  have hverify := crcVerify_be16 (requestBody u f a n) lo hi
  rw [hbody] at hverify ⊢
  by_cases h : crcWire [u, f, hi8 a, lo8 a, hi8 n, lo8 n] = [lo, hi] <;> simp [decodeRequest, hverify, h]

theorem decodeWindow_requestBody_append {unit u f : Byte} {a n : Word} {lo hi : Byte}
    (h : decodeRequest (requestBody u f a n ++ [lo, hi]) = none) :
    decodeWindow unit (requestBody u f a n ++ [lo, hi]) = some (.reqInvalid u f a n lo hi) := by
  have hwindow : requestBody u f a n ++ [lo, hi] = [u, f, hi8 a, lo8 a, hi8 n, lo8 n, lo, hi] := rfl
  rw [hwindow] at h ⊢
  simp only [decodeWindow, h, be16_hi8_lo8]

/-! ### The row of a Request -/

theorem row_of_foreign {unit : Byte} {r : Request} (hunit : r.unitId ≠ unit) :
    r.row unit = .reqForeign r.unitId r.functionCode r.address r.count := if_pos hunit

theorem row_of_unsupported {unit : Byte} {r : Request} (hunit : r.unitId = unit) (hfn : r.functionCode ≠ fnReadInput) :
    r.row unit = .reqUnsupportedFunction r.unitId r.functionCode r.address r.count := by
  rw [Request.row, if_neg (not_not.mpr hunit), if_pos hfn]

theorem row_of_oversized {unit : Byte} {r : Request} (hunit : r.unitId = unit) (hfn : r.functionCode = fnReadInput)
    (hcount : maxCount < r.count) : r.row unit = .reqCountTooLarge r.unitId r.address r.count := by
  rw [Request.row, if_neg (not_not.mpr hunit), if_neg (not_not.mpr hfn), if_pos hcount]

theorem row_of_accepted {unit : Byte} {r : Request} (hunit : r.unitId = unit) (hfn : r.functionCode = fnReadInput)
    (hcount : r.count ≤ maxCount) : r.row unit = .reqReadInputRegisters r.unitId r.address r.count := by
  rw [Request.row, if_neg (not_not.mpr hunit), if_neg (not_not.mpr hfn), if_neg (BitVec.not_lt.mpr hcount)]

theorem wellFormed_row (unit : Byte) (r : Request) : (r.row unit).wellFormed unit = true := by
  rcases row_cases unit r with ⟨hunit, e⟩ | ⟨hunit, hfn, e⟩ | ⟨hunit, -, hcount, e⟩ | ⟨hunit, -, hcount, e⟩
  · simp [e, Instr.wellFormed, hunit]
  · simp [e, Instr.wellFormed, hunit, hfn]
  · simp [e, Instr.wellFormed, hunit, hcount]
  · simp [e, Instr.wellFormed, hunit, hcount]

theorem encode_row (unit : Byte) (r : Request) :
    encode (r.row unit) = some (requestFrame r.unitId r.functionCode r.address r.count) := by
  rcases row_cases unit r with ⟨-, e⟩ | ⟨-, -, e⟩ | ⟨-, hfn, -, e⟩ | ⟨-, hfn, -, e⟩
  · rw [e, encode]
  · rw [e, encode]
  · rw [e, encode, hfn]
  · rw [e, encode, hfn]

/-! ### The row of a window is well-formed, and encoded by the window -/

theorem decodeWindow_cases (unit : Byte) {w : List Byte} (h : w.length = 8) :
    (∃ r, decodeRequest w = some r ∧ decodeWindow unit w = some (r.row unit)) ∨
    ∃ u f a n lo hi, decodeWindow unit w = some (.reqInvalid u f a n lo hi) ∧ w = requestBody u f a n ++ [lo, hi] ∧
      crcWire (requestBody u f a n) ≠ [lo, hi] := by
  cases hd : decodeRequest w with
  | some r => exact .inl ⟨r, rfl, decodeWindow_of_valid hd⟩
  | none =>
    obtain ⟨u, f, a, n, lo, hi, hrow, hbytes⟩ := decodeWindow_of_invalid (unit := unit) h hd
    rw [hbytes] at hd
    exact .inr ⟨u, f, a, n, lo, hi, hrow, hbytes, (decodeRequest_requestBody_append ..).mp hd⟩

/-- Every window has a row (R84), well-formed and encoded by the window. -/
theorem exists_row_of_window (unit : Byte) {w : List Byte} (h : w.length = 8) :
    ∃ i, decodeWindow unit w = some i ∧ encode i = some w ∧ i.wellFormed unit = true := by
  rcases decodeWindow_cases unit h with ⟨r, hd, hrow⟩ | ⟨u, f, a, n, lo, hi, hrow, hbytes, hcrc⟩
  · exact ⟨_, hrow, by rw [encode_row, ← (decodeRequest_eq_some hd).2], wellFormed_row unit r⟩
  · exact ⟨_, hrow, by rw [hbytes]; rfl, by simp [Instr.wellFormed, hcrc]⟩

theorem encode_of_decodeResponse {unit : Byte} {bytes : List Byte} {i : Instr} (h : decodeResponse bytes = .ok i) :
    encode i = some bytes ∧ i.wellFormed unit = true := by
  rcases decodeResponse_cases h with ⟨u, regs, rfl, hlen, rfl⟩ | ⟨u, f7, rfl, rfl⟩ | ⟨u, rfl, rfl⟩
  · exact ⟨rfl, decide_eq_true hlen⟩
  · exact ⟨rfl, rfl⟩
  · exact ⟨rfl, rfl⟩

/-! ### The obligations -/

/-- Settles O42, row by row: a request frame decodes to its row by the operands' provisos, a response, which is never 8 bytes
long, by the reader of responses. -/
theorem decodeOfEncodeIsTheInstruction : Obligations.DecodeOfEncodeIsTheInstruction := by
  intro unit i bytes hwf henc
  cases i with
  | reqInvalid u f a n lo hi =>
    cases henc
    have hcrc : crcWire (requestBody u f a n) ≠ [lo, hi] := by simpa [Instr.wellFormed] using hwf
    exact decode_of_window (decodeWindow_requestBody_append ((decodeRequest_requestBody_append ..).mpr hcrc))
  | reqForeign u f a n =>
    cases henc
    have hunit : u ≠ unit := by simpa [Instr.wellFormed] using hwf
    rw [decode_requestFrame, row_of_foreign hunit]
    rfl
  | reqUnsupportedFunction u f a n =>
    cases henc
    obtain ⟨hunit, hfn⟩ : u = unit ∧ f ≠ fnReadInput := by simpa [Instr.wellFormed] using hwf
    rw [decode_requestFrame, row_of_unsupported hunit hfn]
    rfl
  | reqCountTooLarge u a n =>
    cases henc
    obtain ⟨hunit, hcount⟩ : u = unit ∧ maxCount < n := by simpa [Instr.wellFormed] using hwf
    rw [decode_requestFrame, row_of_oversized hunit rfl hcount]
    rfl
  | reqReadInputRegisters u a n =>
    cases henc
    obtain ⟨hunit, hcount⟩ : u = unit ∧ n ≤ maxCount := by simpa [Instr.wellFormed] using hwf
    rw [decode_requestFrame, row_of_accepted hunit rfl hcount]
    rfl
  | rspNormal u regs =>
    cases henc
    rw [decode_of_length_ne (by rw [normalFrame_length]; omega)]
    exact decodeResponse_normalFrame u regs (of_decide_eq_true hwf)
  | rspExcIllegalFunction u f7 =>
    cases henc
    have hbits : (f7.setWidth 8).setWidth 7 = f7 := (by decide : ∀ f7 : BitVec 7, (f7.setWidth 8).setWidth 7 = f7) f7
    rw [decode_of_length_ne (by simp), decodeResponse_exceptionFrame, hbits]
  | rspExcIllegalDataValue u =>
    cases henc
    rw [decode_of_length_ne (by simp)]
    exact decodeResponse_illegalDataValue u
  | _ => cases henc

/-- Settles O43: the row of a window, and the three response rows the reader answers. -/
theorem encodeOfDecodeIsTheFrame : Obligations.EncodeOfDecodeIsTheFrame := by
  intro unit bytes i h
  by_cases hlen : bytes.length = 8
  · obtain ⟨j, hrow, henc, hwf⟩ := exists_row_of_window unit hlen
    rw [decode_of_window hrow] at h
    cases h
    exact ⟨henc, hwf⟩
  · rw [decode_of_length_ne hlen] at h
    exact encode_of_decodeResponse h

/-- Settles O44: the row of the window is one of the five, and O42 makes it the only one. -/
theorem requestRowsPartitionAllWindows : Obligations.RequestRowsPartitionAllWindows := by
  intro unit w hlen
  obtain ⟨i, hrow, henc, hwf⟩ := exists_row_of_window unit hlen
  have hdec : decode unit w = .ok i := decode_of_window hrow
  refine ⟨i, hdec, henc, hwf, ?_, fun j hjwf hjenc => ?_⟩
  · rcases decodeWindow_cases unit hlen with ⟨r, -, hr⟩ | ⟨u, f, a, n, lo, hi, hr, -⟩
    · obtain rfl : i = r.row unit := Option.some.inj (hrow.symm.trans hr)
      rcases row_cases unit r with ⟨-, e⟩ | ⟨-, -, e⟩ | ⟨-, -, -, e⟩ | ⟨-, -, -, e⟩
      · exact .inr (.inl ⟨_, _, _, _, e⟩)
      · exact .inr (.inr (.inl ⟨_, _, _, _, e⟩))
      · exact .inr (.inr (.inr (.inl ⟨_, _, _, e⟩)))
      · exact .inr (.inr (.inr (.inr ⟨_, _, _, e⟩)))
    · exact .inl ⟨u, f, a, n, lo, hi, Option.some.inj (hrow.symm.trans hr)⟩
  · have hj := decodeOfEncodeIsTheInstruction unit j w hjwf hjenc
    rw [hdec] at hj
    exact (Except.ok.inj hj).symm

/-- Settles O45: the decoder evaluated on the eight frames. -/
theorem printedFramesDecodeToTheirRows : Obligations.PrintedFramesDecodeToTheirRows :=
  ⟨by decide +kernel, by decide +kernel, by decide +kernel, by decide +kernel, by decide +kernel, by decide +kernel,
    by decide +kernel, by decide +kernel⟩

end Sys2Proof
end

section
/-! One step, by the state of the engine (10_state.md R33, 46_slave_engine.md R211): what it runs and where it leads, then O46, O9,
O10, O11, O47, O48 and O49. -/

namespace Sys2Proof.Machine

/-- No power-on reset is released first. -/
def State.NoReset (s : State) : Prop := ∀ ms, s.world ≠ .reset :: ms

theorem noReset_of_world_nil {s : State} (h : s.world = []) : s.NoReset := fun ms hms => by
  rw [h] at hms
  cases hms

theorem noReset_of_world_cons {s : State} {m : Move} {ms : List Move} (h : s.world = m :: ms) (hm : m ≠ .reset) :
    s.NoReset := fun ls hls => by
  rw [h] at hls
  exact hm (List.cons.inj hls).1

/-! ### Reset, and the four states of the engine -/

theorem step_of_reset {s : State} {ms : List Move} (h : s.world = .reset :: ms) :
    step s = exec .engReset { s with world := ms } :=
  step_of_run (by simp only [fetch, h])

theorem fetch_of_idle {s : State} (hr : s.NoReset) (hf : s.fsm = .idle) : fetch s = fetchIdle s.world s := by
  rw [fetch_of_no_reset hr, fetchByState, hf]

theorem fetch_of_scanning {s : State} (hr : s.NoReset) (hf : s.fsm = .scanning) : fetch s = fetchWindow s := by
  rw [fetch_of_no_reset hr, fetchByState, hf]

theorem fetch_of_dispatching {s : State} (hr : s.NoReset) (hf : s.fsm = .dispatching) : fetch s = fetchRequest s := by
  rw [fetch_of_no_reset hr, fetchByState, hf]

theorem fetch_of_responding {s : State} (hr : s.NoReset) (hf : s.fsm = .responding) : fetch s = fetchResponse s := by
  rw [fetch_of_no_reset hr, fetchByState, hf]

/-! ### In `Scanning` -/

theorem step_of_row {s : State} {w : List Byte} {i : Instr} (hr : s.NoReset) (hf : s.fsm = .scanning)
    (hw : scanWindow s.scan = some w) (hd : decodeRequest w = none) (hi : decodeWindow s.cfgUnitId w = some i) :
    step s = exec i s :=
  step_of_run (by rw [fetch_of_scanning hr hf]; simp only [fetchWindow, hw, hd, hi])

theorem step_of_noise {s : State} {w : List Byte} (hr : s.NoReset) (hf : s.fsm = .scanning)
    (hw : scanWindow s.scan = some w) (hd : decodeRequest w = none) :
    step s = .next { s with bp := s.bp + 1, crc := crcRaw (w.take 6) } := by
  obtain ⟨u, f, a, n, lo, hi, hi1, rfl⟩ := decodeWindow_of_invalid (unit := s.cfgUnitId) (memRead_length hw) hd
  rw [step_of_row hr hf hw hd hi1]
  rfl

theorem step_of_frame {s : State} {w : List Byte} {r : Request} (hr : s.NoReset) (hf : s.fsm = .scanning)
    (hw : scanWindow s.scan = some w) (hd : decodeRequest w = some r) : step s = .next (yieldRequest r w s) :=
  step_of_go (by rw [fetch_of_scanning hr hf]; simp only [fetchWindow, hw, hd])

theorem step_of_no_window {s : State} (hr : s.NoReset) (hf : s.fsm = .scanning) (hw : scanWindow s.scan = none) :
    step s = .next (finishScan s) :=
  step_of_go (by rw [fetch_of_scanning hr hf]; simp only [fetchWindow, hw])

/-! ### In `Dispatching` and in `Responding` -/

theorem step_of_request {s : State} {r : Request} (hr : s.NoReset) (hf : s.fsm = .dispatching) (hq : s.req = some r) :
    step s = exec (r.row s.cfgUnitId) s :=
  step_of_run (by rw [fetch_of_dispatching hr hf]; simp only [fetchRequest, hq])

theorem step_of_no_request {s : State} (hr : s.NoReset) (hf : s.fsm = .dispatching) (hq : s.req = none) :
    step s = .next (nextRequest s) :=
  step_of_go (by rw [fetch_of_dispatching hr hf]; simp only [fetchRequest, hq])

theorem step_of_response {s : State} {i : Instr} (hr : s.NoReset) (hf : s.fsm = .responding)
    (hd : decodeResponse s.resp = .ok i) : step s = exec i s :=
  step_of_run (by rw [fetch_of_responding hr hf]; simp only [fetchResponse, hd])

theorem step_of_no_response {s : State} {e : Reject} (hr : s.NoReset) (hf : s.fsm = .responding)
    (hd : decodeResponse s.resp = .error e) : step s = .next (respond s.resp s) :=
  step_of_go (by rw [fetch_of_responding hr hf]; simp only [fetchResponse, hd])

/-! ### In `Idle` -/

/-- The poller polls, which it also does with no move fixed (log 11); `ms` are the moves after it. -/
def State.PollNext (ms : List Move) (s : State) : Prop := s.world = [] ∧ ms = [] ∨ s.world = .poll :: ms

theorem State.PollNext.noReset {s : State} {ms : List Move} (h : s.PollNext ms) : s.NoReset := by
  rcases h with ⟨hw, -⟩ | hw
  · exact noReset_of_world_nil hw
  · exact noReset_of_world_cons hw nofun

theorem fetch_of_pollNext {s : State} {ms : List Move} (hf : s.fsm = .idle) (h : s.PollNext ms) :
    fetch s = fetchPoll { s with world := ms } := by
  rw [fetch_of_idle h.noReset hf]
  rcases h with ⟨hw, rfl⟩ | hw
  · rw [hw, fetchIdle, ← hw]
  · rw [hw, fetchIdle]

theorem step_of_chunk {s t : State} {ms : List Move} {chunk : List Byte} (hf : s.fsm = .idle) (h : s.PollNext ms)
    (hc : readChunk { s with world := ms } = (some chunk, t)) : step s = .next (startScan chunk t) :=
  step_of_go (by rw [fetch_of_pollNext hf h]; simp only [fetchPoll, hc])

theorem step_of_readFailure {s t : State} {ms : List Move} (hf : s.fsm = .idle) (h : s.PollNext ms)
    (hc : readChunk { s with world := ms } = (none, t)) : step s = .next (setResult .unit (transportFailure t)) :=
  (step_of_run (by rw [fetch_of_pollNext hf h]; simp only [fetchPoll, hc])).trans (exec_engXfail .read t)

theorem step_of_elapse {s : State} {ms : List Move} {k : Nat} (hf : s.fsm = .idle) (h : s.world = .elapse k :: ms) :
    step s = .next { s with world := ms, now := s.now + k } :=
  step_of_go (by rw [fetch_of_idle (noReset_of_world_cons h nofun) hf, h, fetchIdle])

theorem step_of_arrive {s : State} {ms : List Move} {bs : List Byte} (hf : s.fsm = .idle) (h : s.world = .arrive bs :: ms) :
    step s = .next { s with world := ms, rx := s.rx ++ bs } :=
  step_of_go (by rw [fetch_of_idle (noReset_of_world_cons h nofun) hf, h]; rfl)

theorem step_of_stop {s : State} {r : Refusal} (h : fetch s = .stop r) : step s = .refused r := by
  rw [step, h]

theorem step_of_writeUnitId {s : State} {ms : List Move} {v : Byte} (hf : s.fsm = .idle)
    (h : s.world = .writeUnitId v :: ms) (hrun : s.running = false) :
    step s = .next { s with world := ms, cfgUnitId := v } :=
  step_of_go (by rw [fetch_of_idle (noReset_of_world_cons h nofun) hf, h, fetchIdle, hrun]; rfl)

theorem step_of_writeSilence {s : State} {ms : List Move} {k : Nat} (hf : s.fsm = .idle)
    (h : s.world = .writeSilence k :: ms) (hrun : s.running = false) :
    step s = .next { s with world := ms, cfgSilence := k } :=
  step_of_go (by rw [fetch_of_idle (noReset_of_world_cons h nofun) hf, h, fetchIdle, hrun]; rfl)

/-- U8: the refusal of a late configuration. -/
theorem step_of_lateUnitId {s : State} {ms : List Move} {v : Byte} (hf : s.fsm = .idle)
    (h : s.world = .writeUnitId v :: ms) (hrun : s.running = true) : step s = .refused .configurationWhileRunning :=
  step_of_stop (by rw [fetch_of_idle (noReset_of_world_cons h nofun) hf, h, fetchIdle, hrun]; rfl)

theorem step_of_lateSilence {s : State} {ms : List Move} {k : Nat} (hf : s.fsm = .idle)
    (h : s.world = .writeSilence k :: ms) (hrun : s.running = true) : step s = .refused .configurationWhileRunning :=
  step_of_stop (by rw [fetch_of_idle (noReset_of_world_cons h nofun) hf, h, fetchIdle, hrun]; rfl)

/-! ### The head of a poll, with the transport's answers fixed in advance (R201, R202) -/

theorem trAvail_of_ok {s : State} {as : List AvailAnswer} (h : s.oracle.avail = .ok :: as) :
    trAvail s = (some s.rx.length, { s with oracle := { s.oracle with avail := as } }) := by
  simp only [trAvail, drawAvail, h]

theorem trAvail_of_fail {s : State} {as : List AvailAnswer} (h : s.oracle.avail = .fail :: as) :
    trAvail s = (none, { s with oracle := { s.oracle with avail := as } }) := by
  simp only [trAvail, drawAvail, h]

theorem trRead_of_bytes {s : State} {rs : List ReadAnswer} {k : Nat} (n : Nat) (h : s.oracle.read = .bytes k :: rs) :
    trRead n s = (some (s.rx.take (min k n)),
      { s with oracle := { s.oracle with read := rs }, rx := s.rx.drop (min k n) }) := by
  simp only [trRead, drawRead, h]

theorem trRead_of_fail {s : State} {rs : List ReadAnswer} {left : List Byte} (n : Nat)
    (h : s.oracle.read = .fail left :: rs) :
    trRead n s = (none, { s with oracle := { s.oracle with read := rs }, rx := left }) := by
  simp only [trRead, drawRead, h]

theorem readChunk_of_ok {s : State} {as : List AvailAnswer} (h : s.oracle.avail = .ok :: as) :
    readChunk s = trRead s.rx.length { s with running := true, oracle := { s.oracle with avail := as } } := by
  rw [readChunk, trAvail_of_ok (s := { s with running := true }) h]

theorem readChunk_of_fail {s : State} {as : List AvailAnswer} (h : s.oracle.avail = .fail :: as) :
    readChunk s = (none, { s with running := true, oracle := { s.oracle with avail := as } }) := by
  rw [readChunk, trAvail_of_fail (s := { s with running := true }) h]

/-! ### The obligations -/

/-- Settles O46: the row that each state of the engine selects. -/
theorem stepRunsTheDecodedInstruction : Obligations.StepRunsTheDecodedInstruction := by
  refine ⟨fun s ms hw => step_of_reset hw, fun s hr => ⟨fun w i hf hw hd hi => step_of_row hr hf hw hd hi,
    fun r hf hq => step_of_request hr hf hq, fun r i hf hq hwf hi => ?_, fun i hf hd => step_of_response hr hf hd⟩⟩
  have hraw : decodeRequest r.raw = some r := by
    rw [eq_ofFields_of_wellFormed hwf]
    exact decodeRequest_requestFrame ..
  obtain rfl : r.row s.cfgUnitId = i := Option.some.inj ((decodeWindow_of_valid hraw).symm.trans hi)
  exact step_of_request hr hf hq

/-- Settles O9: the row by its meaning, the step by the row it runs. -/
theorem invalidWindowAdvancesTheCursorByOneByte : Obligations.InvalidWindowAdvancesTheCursorByOneByte :=
  ⟨fun _ _ _ _ _ _ _ => rfl, fun _ _ hr hf hw hd => step_of_noise hr hf hw hd⟩

/-- Settles O10: the step yields the Request, and the accumulator is over the window's first six bytes. -/
theorem validWindowIsYieldedAndCutFromTheBuffer : Obligations.ValidWindowIsYieldedAndCutFromTheBuffer := by
  intro s w r hr hf hw hd
  rw [step_of_frame hr hf hw hd, yieldRequest, scanAccept, crcAfterDecode_of_length_eight (memRead_length hw)]
  rfl

/-- Settles O11: the end of the pass, and then the first Request or `Idle`. -/
theorem endOfPassStepsBackAndRetainsTheTail : Obligations.EndOfPassStepsBackAndRetainsTheTail := by
  intro s hr hf hshort
  have hnext : step s = .next (finishScan s) := step_of_no_window hr hf (memRead_eq_none.mpr hshort)
  refine ⟨fun hp => ?_, fun r rs hp => ?_⟩
  · rw [hnext, finishScan, nextRequest_nil (s := s.withScan (scanEnd s.scan)) hp]
    simp only [State.withScan, scanEnd, State.scan]
  · rw [hnext, finishScan, nextRequest_cons (s := s.withScan (scanEnd s.scan)) hp]
    rfl

/-- Settles O47: a valid request is placed in the latch, any other window at the cursor, a response in TXBUF. -/
theorem placedTableWordIsRunByTheNextStep : Obligations.PlacedTableWordIsRunByTheNextStep := by
  intro s nbits w i hr hunit hi
  have hdec : decode s.cfgUnitId (bytesOfNat (nbits / 8) w) = .ok i := by
    rw [hunit]
    unfold decodeTableWord at hi
    split at hi
    · cases hi
      assumption
    · cases hi
  unfold State.withFetchWord
  generalize bytesOfNat (nbits / 8) w = bytes at hdec
  by_cases hlen : bytes.length = frameLen
  · cases hd : decodeRequest bytes with
    | some r =>
      have hplace : placeFrame bytes s = { s with fsm := .dispatching, req := some r } := by
        simp only [placeFrame, if_pos hlen, hd]
      rw [decode_of_window (decodeWindow_of_valid hd)] at hdec
      cases hdec
      rw [hplace]
      exact step_of_request hr rfl rfl
    | none =>
      have hplace : placeFrame bytes s = { s with fsm := .scanning, buf := bytes, bp := 0 } := by
        simp only [placeFrame, if_pos hlen, hd]
      have hwindow : memRead 0 frameLen bytes = some bytes := by
        rw [memRead_of_le (by omega), List.drop_zero, List.take_of_length_le (Nat.le_of_eq hlen)]
      obtain ⟨j, hj, -, -⟩ := exists_row_of_window s.cfgUnitId hlen
      rw [decode_of_window hj] at hdec
      cases hdec
      rw [hplace]
      exact step_of_row hr rfl hwindow hd hj
  · have hplace : placeFrame bytes s = { s with fsm := .responding, resp := bytes } := if_neg hlen
    rw [decode_of_length_ne hlen] at hdec
    rw [hplace]
    exact step_of_response hr rfl hdec

/-- Settles O48: the two calls of the transport, with the answers fixed in advance. -/
theorem pollReadsAtMostTheReportedBytes : Obligations.PollReadsAtMostTheReportedBytes := by
  intro s as rs left k ms hf hpoll
  have hok := readChunk_of_ok (s := { s with world := ms }) (as := as)
  refine ⟨fun havail hread => ?_, fun havail => ?_, fun havail hread => ?_⟩
  · exact step_of_chunk hf hpoll ((hok havail).trans (trRead_of_bytes _ hread))
  · exact step_of_readFailure hf hpoll (readChunk_of_fail (s := { s with world := ms }) havail)
  · exact step_of_readFailure hf hpoll ((hok havail).trans (trRead_of_fail _ hread))

/-- Settles O49: one equation for each move. -/
theorem outsideMovesBetweenPolls : Obligations.OutsideMovesBetweenPolls :=
  fun _ _ hf => ⟨fun _ h => step_of_elapse hf h, fun _ h => step_of_arrive hf h, fun _ h hrun => step_of_writeUnitId hf h hrun,
    fun _ h hrun => step_of_writeSilence hf h hrun, fun _ h hrun => step_of_lateUnitId hf h hrun,
    fun _ h hrun => step_of_lateSilence hf h hrun⟩

end Sys2Proof.Machine
end

section
/-! One poll, against its steps (46_slave_engine.md R201, R204): the request row and `ENG.DISPATCH`, the steps of a scan, and the
steps of the Requests it yields, then O40 and O51. -/

namespace Sys2Proof.Machine

/-! ### What dispatching a Request leaves, for the engine's loop -/

theorem dispatch_frame (r : Request) (s : State) :
    (dispatch r s).2.pending = s.pending ∧ (dispatch r s).2.world = s.world := by
  rcases row_cases s.cfgUnitId r with ⟨hunit, -⟩ | ⟨hunit, hfn, -⟩ | ⟨hunit, hfn, hcount, -⟩ | ⟨hunit, hfn, hcount, -⟩
  · rw [dispatch_of_foreign hunit]
    exact ⟨rfl, rfl⟩
  · rw [dispatch_of_unsupported hunit hfn]
    exact ⟨rfl, rfl⟩
  · rw [dispatch_of_oversized hunit hfn hcount]
    exact ⟨rfl, rfl⟩
  · obtain ⟨_, _, _, _, _, hblock, -⟩ := assemble_frame r.address r.count s
    rw [dispatch_of_accepted hunit hfn hcount, hblock]
    exact ⟨rfl, rfl⟩

/-- TXBUF holds a response, and the accumulator is over everything in it before its CRC (R168). -/
def State.Prepared (resp : List Byte) (s : State) : Prop :=
  s.resp = resp ∧ s.crc = crcRaw (resp.take (resp.length - 2))

theorem take_before_crcWire (body : List Byte) :
    (body ++ crcWire body).take ((body ++ crcWire body).length - 2) = body := by
  rw [List.length_append, crcWire_length, Nat.add_sub_cancel, List.take_left]

theorem prepared_encodeNormal (u f : Byte) (regs : List Word) (s : State) :
    (encodeNormal u f regs s).Prepared (normalFrame u f regs) :=
  ⟨rfl, by rw [normalFrame, take_before_crcWire]; rfl⟩

theorem prepared_encodeException (u f e : Byte) (s : State) :
    (encodeException u f e s).Prepared (exceptionFrame u f e) :=
  ⟨rfl, by rw [exceptionFrame, take_before_crcWire]; rfl⟩

theorem prepared_of_dispatch {r : Request} {s t : State} {resp : List Byte} (h : dispatch r s = (some resp, t)) :
    t.Prepared resp := by
  rcases row_cases s.cfgUnitId r with ⟨hunit, -⟩ | ⟨hunit, hfn, -⟩ | ⟨hunit, hfn, hcount, -⟩ | ⟨hunit, hfn, hcount, -⟩
  · rw [dispatch_of_foreign hunit] at h
    cases h
  · rw [dispatch_of_unsupported hunit hfn] at h
    cases h
    exact prepared_encodeException ..
  · rw [dispatch_of_oversized hunit hfn hcount] at h
    cases h
    exact prepared_encodeException ..
  · rw [dispatch_of_accepted hunit hfn hcount] at h
    cases h
    exact prepared_encodeNormal ..

/-- The response row encodes again what stands in TXBUF, which changes nothing. -/
theorem exec_response_of_prepared {s : State} {i : Instr} {resp : List Byte} (hp : s.Prepared resp)
    (h : decodeResponse resp = .ok i) : exec i s = .next (respond resp s) := by
  obtain ⟨hresp, hcrc⟩ := hp
  rcases decodeResponse_cases h with ⟨u, regs, rfl, hlen, e⟩ | ⟨u, f7, rfl, e⟩ | ⟨u, rfl, e⟩
  · rw [e, normalFrame, take_before_crcWire] at hcrc
    show execRspNormal u regs s = _
    rw [execRspNormal, if_neg (by simp only [maxEncodable]; omega), encodeNormal, ← e, ← hresp, ← hcrc]
  · rw [e, exceptionFrame, take_before_crcWire] at hcrc
    show execRspExcIllegalFunction u f7 s = _
    rw [execRspExcIllegalFunction, encodeException, ← e, ← hresp, ← hcrc]
  · rw [e, exceptionFrame, take_before_crcWire] at hcrc
    show execRspExcIllegalDataValue u s = _
    rw [execRspExcIllegalDataValue, encodeException, ← e, ← hresp, ← hcrc]

theorem step_of_prepared {s : State} {resp : List Byte} (hr : s.NoReset) (hf : s.fsm = .responding)
    (hp : s.Prepared resp) : step s = .next (respond resp s) := by
  cases hd : decodeResponse resp with
  | ok i => rw [step_of_response hr hf (hp.1 ▸ hd), exec_response_of_prepared hp hd]
  | error e => rw [step_of_no_response hr hf (hp.1 ▸ hd), hp.1]

/-! ### The row of a Request and the engine's loop (R201, R206) -/

theorem acceptRequest_of_wellFormed {r : Request} (h : r.wellFormed = true) (s : State) :
    acceptRequest r.unitId r.functionCode r.address r.count s = countRequest r (latchRequest r s) := by
  rw [acceptRequest, ← eq_ofFields_of_wellFormed h]

/-- Where the engine is once a Request is dispatched: at the return from it, or in `Responding` (R211). -/
def afterDispatch : Option (List Byte) × State → State
  | (none, t) => nextRequest t
  | (some _, t) => { t with fsm := .responding }

theorem exec_row_eq_afterDispatch {r : Request} (h : r.wellFormed = true) (s : State) :
    exec (r.row s.cfgUnitId) s = .next (afterDispatch (dispatch r (countRequest r (latchRequest r s)))) := by
  rw [← acceptRequest_of_wellFormed h s]
  show exec (r.row (acceptRequest r.unitId r.functionCode r.address r.count s).cfgUnitId) s = _
  rcases row_cases (acceptRequest r.unitId r.functionCode r.address r.count s).cfgUnitId r with
    ⟨hunit, e⟩ | ⟨hunit, hfn, e⟩ | ⟨hunit, hfn, hcount, e⟩ | ⟨hunit, hfn, hcount, e⟩
  · rw [e, dispatch_of_foreign hunit]
    rfl
  · rw [e, dispatch_of_unsupported hunit hfn]
    rfl
  · rw [e, dispatch_of_oversized hunit hfn hcount, hfn]
    rfl
  · rw [e, dispatch_of_accepted hunit hfn hcount, hfn]
    rfl

/-- Settles O40: one kind of Request for each row. -/
theorem requestRowsDoWhatTheEnginesLoopDoes : Obligations.RequestRowsDoWhatTheEnginesLoopDoes := by
  intro r s h
  rw [exec_row_eq_afterDispatch h]
  rcases dispatch r (countRequest r (latchRequest r s)) with ⟨_ | resp, t⟩ <;> rfl

/-! ### Steps of a busy engine -/

/-- A step of an engine that is not `Idle`. -/
def BusyStep (s t : State) : Prop := s.fsm ≠ .idle ∧ step s = .next t

theorem stepN_succ {s t : State} (h : step s = .next t) (k : Nat) : stepN (k + 1) s = stepN k t := by
  have hcore : core.step s = .next t := h
  simp only [stepN, Host.Core.run, hcore]
  rfl

theorem exists_stepN_of_busySteps {s t : State} (h : Relation.ReflTransGen BusyStep s t) :
    ∃ k, stepN k s = .next t ∧ ∀ j, j < k → ∃ v, stepN j s = .next v ∧ v.fsm ≠ .idle := by
  induction h using Relation.ReflTransGen.head_induction_on with
  | refl => exact ⟨0, rfl, nofun⟩
  | @head s u hstep _ ih =>
    obtain ⟨hbusy, hnext⟩ := hstep
    obtain ⟨k, hk, hbefore⟩ := ih
    refine ⟨k + 1, (stepN_succ hnext k).trans hk, fun j hj => ?_⟩
    cases j with
    | zero => exact ⟨s, rfl, hbusy⟩
    | succ j =>
      obtain ⟨v, hv, hvbusy⟩ := hbefore j (Nat.lt_of_succ_lt_succ hj)
      exact ⟨v, (stepN_succ hnext j).trans hv, hvbusy⟩

/-! ### The steps of a scan are the iterations of its loop -/

theorem scanLoop_of_no_window {c : Scan} (h : scanWindow c = none) (k : Nat) : scanLoop (k + 1) c = c := by
  rw [scanLoop, h]

theorem scanLoop_of_frame {c : Scan} {w : List Byte} {r : Request} (h : scanWindow c = some w)
    (hd : decodeRequest w = some r) (k : Nat) : scanLoop (k + 1) c = scanLoop k (scanAccept r w c) := by
  simp only [scanLoop, h, hd]

theorem scanLoop_of_noise {c : Scan} {w : List Byte} (h : scanWindow c = some w) (hd : decodeRequest w = none) (k : Nat) :
    scanLoop (k + 1) c = scanLoop k (scanReject w c) := by
  simp only [scanLoop, h, hd]

theorem scan_busySteps (k : Nat) {s : State} (hr : s.NoReset) (hf : s.fsm = .scanning)
    (hk : s.buf.length ≤ k + s.bp) :
    Relation.ReflTransGen BusyStep s (nextRequest (s.withScan (scanEnd (scanLoop k s.scan)))) := by
  have hbusy : s.fsm ≠ .idle := by
    rw [hf]
    nofun
  induction k generalizing s with
  | zero =>
    have hw : scanWindow s.scan = none := memRead_eq_none.mpr (by simp only [State.scan, frameLen]; omega)
    exact .single ⟨hbusy, step_of_no_window hr hf hw⟩
  | succ k ih =>
    cases hw : scanWindow s.scan with
    | none =>
      rw [scanLoop_of_no_window hw]
      exact .single ⟨hbusy, step_of_no_window hr hf hw⟩
    | some w =>
      have hend : s.bp + 8 ≤ s.buf.length := (memRead_eq_some hw).1
      cases hd : decodeRequest w with
      | some r =>
        rw [scanLoop_of_frame hw hd]
        refine .head ⟨hbusy, step_of_frame hr hf hw hd⟩ (ih (s := yieldRequest r w s) hr hf ?_ hbusy)
        show (s.buf.drop (s.bp + 8)).length ≤ k + 0
        rw [List.length_drop]
        omega
      | none =>
        have hnext : step s = .next (s.withScan (scanReject w s.scan)) := by
          rw [step_of_noise hr hf hw hd, scanReject, crcAfterDecode_of_length_eight (memRead_length hw)]
          rfl
        rw [scanLoop_of_noise hw hd]
        refine .head ⟨hbusy, hnext⟩ (ih (s := s.withScan (scanReject w s.scan)) hr hf ?_ hbusy)
        show s.buf.length ≤ k + (s.bp + 1)
        omega

/-- From the poll's chunk to the first Request, or to `Idle`, by the steps; and `ASM.FEED` (R121) in one. -/
theorem feed_busySteps (chunk : List Byte) {s : State} (hr : s.NoReset) :
    Relation.ReflTransGen BusyStep (startScan chunk s) (nextRequest
      { (feed chunk { s with fsm := .scanning }).2 with pending := (feed chunk { s with fsm := .scanning }).1 }) :=
  scan_busySteps (s := startScan chunk s) (s.buf ++ chunk).length hr rfl (Nat.le_refl _)

/-! ### The steps of the Requests of a feed -/

theorem nextRequest_forget (s : State) : nextRequest { s with req := none } = nextRequest s := by
  rcases nextRequest_cases s with ⟨hp, e⟩ | ⟨r, rs, hp, e⟩
  · rw [e, nextRequest_nil (s := { s with req := none }) hp]
  · rw [e, nextRequest_cons (s := { s with req := none }) hp]

theorem send_frame (resp : List Byte) (s : State) :
    (send resp s).2.pending = s.pending ∧ (send resp s).2.world = s.world := by
  obtain ⟨_, _, _, _, _, -, -, h | ⟨_, -, h⟩⟩ := send_spec resp s
  · rw [h]
    exact ⟨rfl, rfl⟩
  · rw [h]
    exact ⟨rfl, rfl⟩

theorem respond_of_sent {resp : List Byte} {s t : State} (h : send resp s = (true, t)) : respond resp s = nextRequest t := by
  rw [respond, h]

theorem respond_of_sendFailed {resp : List Byte} {s t : State} (h : send resp s = (false, t)) :
    respond resp s = transportFailure t := by
  rw [respond, h]

/-- The state in which the loop of `ENG.POLL` counts and dispatches `r`, with `rs` still to come (R201). -/
def State.taking (r : Request) (rs : List Request) (s : State) : State := { latchRequest r s with pending := rs }

/-! One round of the loop, by what the dispatch answers and how the write goes. -/

theorem serveAll_of_no_response {r : Request} {rs : List Request} {s t : State}
    (h : dispatch r (countRequest r (s.taking r rs)) = (none, t)) :
    serveAll (r :: rs) s = serveAll rs { t with req := none } := by
  rw [State.taking] at h
  simp only [serveAll, h]

theorem serveAll_of_sent {r : Request} {rs : List Request} {s t u : State} {resp : List Byte}
    (h : dispatch r (countRequest r (s.taking r rs)) = (some resp, t))
    (hsend : send resp { t with fsm := .responding } = (true, u)) :
    serveAll (r :: rs) s = serveAll rs { u with req := none } := by
  rw [State.taking] at h
  simp only [serveAll, h, hsend]

theorem serveAll_of_sendFailed {r : Request} {rs : List Request} {s t u : State} {resp : List Byte}
    (h : dispatch r (countRequest r (s.taking r rs)) = (some resp, t))
    (hsend : send resp { t with fsm := .responding } = (false, u)) :
    serveAll (r :: rs) s = transportFailure u := by
  rw [State.taking] at h
  simp only [serveAll, h, hsend]

/-- The step that dispatches the Request taken next does what the loop does with it. -/
theorem dispatch_busyStep {r : Request} {rs : List Request} {s : State} (hr : r.wellFormed = true) (hw : s.world = [])
    (hp : s.pending = r :: rs) :
    BusyStep (nextRequest s) (afterDispatch (dispatch r (countRequest r (s.taking r rs)))) := by
  have hnext : nextRequest s = s.taking r rs := nextRequest_cons hp
  have hreset : (s.taking r rs).NoReset := noReset_of_world_nil hw
  rw [hnext]
  exact ⟨nofun, (step_of_request hreset rfl rfl).trans (exec_row_eq_afterDispatch hr (s.taking r rs))⟩

theorem serveAll_busySteps {rs : List Request} (hwf : ∀ r ∈ rs, r.wellFormed = true) {s : State} (hw : s.world = [])
    (hp : s.pending = rs) (hq : s.req = none) : Relation.ReflTransGen BusyStep (nextRequest s) (serveAll rs s) := by
  induction rs generalizing s with
  | nil =>
    have hidle : nextRequest s = serveAll [] s := by rw [nextRequest_nil hp, serveAll, ← hq]
    rw [hidle]
  | cons r rs ih =>
    obtain ⟨hr, hrs⟩ := List.forall_mem_cons.mp hwf
    obtain ⟨hpend, hworld⟩ := dispatch_frame r (countRequest r (s.taking r rs))
    refine .head (dispatch_busyStep hr hw hp) ?_
    rcases hd : dispatch r (countRequest r (s.taking r rs)) with ⟨_ | resp, t⟩
    · rw [hd] at hpend hworld
      rw [serveAll_of_no_response hd, afterDispatch, ← nextRequest_forget]
      exact ih hrs (hworld.trans hw) hpend rfl
    · rw [hd] at hpend hworld
      have hprepared : t.Prepared resp := prepared_of_dispatch hd
      have hstep : step { t with fsm := .responding } = .next (respond resp { t with fsm := .responding }) :=
        step_of_prepared (noReset_of_world_nil (hworld.trans hw)) rfl hprepared
      obtain ⟨hpend', hworld'⟩ := send_frame resp { t with fsm := .responding }
      refine .head ⟨nofun, hstep⟩ ?_
      rcases hs : send resp { t with fsm := .responding } with ⟨_ | _, u⟩
      · rw [serveAll_of_sendFailed hd hs, respond_of_sendFailed hs]
      · rw [hs] at hpend' hworld'
        rw [serveAll_of_sent hd hs, respond_of_sent hs, ← nextRequest_forget]
        exact ih hrs (hworld'.trans (hworld.trans hw)) (hpend'.trans hpend) rfl

/-- The queue of Requests is the operand of the loop, so what it held before makes no difference. -/
theorem serveAll_setPending (rs : List Request) {s : State} (h : s.pending = []) :
    serveAll rs { s with pending := rs } = serveAll rs s := by
  cases rs with
  | nil => rw [← h]
  | cons r rs => rfl

/-! ### The whole poll -/

theorem poll_of_readFailure {s t : State} (h : readChunk s = (none, t)) : poll s = transportFailure t := by
  rw [poll, h]

theorem poll_of_chunk {s t : State} {chunk : List Byte} (h : readChunk s = (some chunk, t)) :
    poll s = serveAll (feed chunk { t with fsm := .scanning }).1 (feed chunk { t with fsm := .scanning }).2 := by
  rw [poll, h]

theorem poll_busySteps {s t : State} {chunk : List Byte} (h : readChunk s = (some chunk, t)) (hw : t.world = [])
    (hq : t.req = none) (hp : t.pending = []) : Relation.ReflTransGen BusyStep (startScan chunk t) (poll s) := by
  rw [poll_of_chunk h, ← serveAll_setPending _ (s := (feed chunk { t with fsm := .scanning }).2) hp]
  have hwf : ∀ r ∈ (feed chunk { t with fsm := .scanning }).1, r.wellFormed = true := by
    rw [feed_requests]
    exact restOf_wellFormed _ _
  exact (feed_busySteps chunk (noReset_of_world_nil hw)).trans (serveAll_busySteps hwf hw rfl hq)

/-- Settles O51: the first step reads the chunk or fails to; after it every step is one of a busy engine, up to the end of the
poll. -/
theorem stepsOfAPollLeadToThePollsResult : Obligations.StepsOfAPollLeadToThePollsResult := by
  intro s hf hw hcontrol
  obtain ⟨hq, hp, -⟩ : s.req = none ∧ s.pending = [] ∧ s.resp = [] := by
    rw [State.ControlInv, hf] at hcontrol
    exact hcontrol
  have hnext : s.PollNext s.world := .inl ⟨hw, hw⟩
  obtain ⟨o, n, rx, answer, hread, -⟩ := readChunk_spec s
  cases answer with
  | none =>
    have hstep := step_of_readFailure hf hnext hread
    refine ⟨1, _, _, Nat.one_pos, stepN_succ hstep 0, exec_engPoll_of_idle hf, ?_, fun j h0 h1 => by omega⟩
    rw [poll_of_readFailure hread]
    rfl
  | some chunk =>
    have hstep := step_of_chunk hf hnext hread
    obtain ⟨k, hk, hbusy⟩ := exists_stepN_of_busySteps (poll_busySteps hread hw hq hp)
    refine ⟨k + 1, _, _, Nat.succ_pos k, (stepN_succ hstep k).trans hk, exec_engPoll_of_idle hf, rfl, fun j h0 hj => ?_⟩
    obtain ⟨j, rfl⟩ := Nat.exists_eq_succ_of_ne_zero (Nat.pos_iff_ne_zero.mp h0)
    obtain ⟨v, hv, hvbusy⟩ := hbusy j (Nat.lt_of_succ_lt_succ hj)
    exact ⟨v, (stepN_succ hstep j).trans hv, hvbusy⟩

end Sys2Proof.Machine
end

section
/-! What every step keeps (10_state.md R37, 45_silence_timer.md R190, R191, 46_slave_engine.md R211, R215), from the ways a step can
go (`StepTo`); then O54, O55, O56, O57, O50, O52, O58, O59 and O60. -/

namespace Sys2Proof.Machine

/-- The return from a request writes the latch, the queue and the engine's state only, and ends in `Idle` or `Dispatching`. -/
theorem eq_of_nextRequest {s t : State} (h : t = nextRequest s) :
    ∃ q p f, t = { s with req := q, pending := p, fsm := f } ∧ (f = .idle ∨ f = .dispatching) := by
  rcases nextRequest_cases s with ⟨-, e⟩ | ⟨r, rs, -, e⟩
  · exact ⟨none, s.pending, .idle, h.trans e, .inl rfl⟩
  · exact ⟨some r, rs, .dispatching, h.trans e, .inr rfl⟩

/-! ### The receive buffer -/

theorem bufferInv_of_not_scanning {s : State} (hf : s.fsm ≠ .scanning) :
    s.BufferInv ↔ s.bp = 0 ∧ s.buf.length ≤ 8 ∧ NoFrame s.buf := by
  rw [State.BufferInv, if_neg hf]

theorem bufferInv_of_scanning {s : State} (hf : s.fsm = .scanning) :
    s.BufferInv ↔ (s.bp = 0 ∨ s.bp + 7 ≤ s.buf.length) ∧ NoFrameBelow s.bp s.buf := by
  rw [State.BufferInv, if_pos hf]

theorem bufferInv_of_empty {s : State} (hbp : s.bp = 0) (hbuf : s.buf = []) : s.BufferInv := by
  have hnone : NoFrame ([] : List Byte) := noFrame_of nofun
  unfold State.BufferInv
  rw [hbp, hbuf]
  split
  · exact ⟨.inl rfl, nofun⟩
  · exact ⟨rfl, Nat.zero_le 8, hnone⟩

/-- A scan that begins has tested no window yet. -/
theorem bufferInv_of_scan_start {s : State} (hf : s.fsm = .scanning) (hbp : s.bp = 0) : s.BufferInv := by
  rw [bufferInv_of_scanning hf, hbp]
  exact ⟨.inl rfl, nofun⟩

theorem bufferInv_nextRequest {s : State} (hbp : s.bp = 0) (hlen : s.buf.length ≤ 8) (hnone : NoFrame s.buf) :
    (nextRequest s).BufferInv := by
  obtain ⟨q, p, f, e, hf⟩ := eq_of_nextRequest (s := s) rfl
  have hns : f ≠ .scanning := by rcases hf with rfl | rfl <;> nofun
  rw [e, bufferInv_of_not_scanning hns]
  exact ⟨hbp, hlen, hnone⟩

/-- One more window is known to be no frame (R124). -/
theorem noFrameBelow_succ {n : Nat} {buf w : List Byte} (h : NoFrameBelow n buf) (hw : memRead n frameLen buf = some w)
    (hd : decodeRequest w = none) : NoFrameBelow (n + 1) buf := by
  intro p v hp hv
  rcases Nat.lt_succ_iff_lt_or_eq.mp hp with hlt | rfl
  · exact h p v hlt hv
  · obtain rfl : w = v := Option.some.inj (hw.symm.trans hv)
    exact hd

/-- The tail retained at the end of a pass (R125): its first window, if it has one, is the last one tested. -/
theorem noFrame_drop {n : Nat} {buf : List Byte} (h : NoFrameBelow n buf) (hend : buf.length < n + 8) :
    NoFrame (buf.drop (n - 1)) := by
  intro p w hw
  obtain ⟨hp, rfl⟩ := memRead_eq_some hw
  rw [List.length_drop, frameLen] at hp
  rw [List.drop_drop]
  exact h _ _ (by omega) (memRead_of_le (by rw [frameLen]; omega))

theorem StepTo.bufferInv {s t : State} (h : StepTo s t) (hs : s.BufferInv) : t.BufferInv := by
  have quiet : s.fsm ≠ .scanning → s.bp = 0 ∧ s.buf.length ≤ 8 ∧ NoFrame s.buf :=
    fun hf => (bufferInv_of_not_scanning hf).mp hs
  cases h with
  | reset _ _ e | readFailed _ _ _ _ _ _ e | responseFails _ _ _ _ _ _ _ _ _ _ e =>
    subst e
    exact bufferInv_of_empty rfl rfl
  | pollBegins _ _ _ _ _ _ _ _ e =>
    subst e
    exact bufferInv_of_scan_start rfl rfl
  | elapses _ _ _ _ e | arrives _ _ _ _ e | writesUnitId _ _ _ _ _ e | writesSilence _ _ _ _ _ e =>
    subst e
    exact hs
  | scanEnds hf hn e =>
    subst e
    obtain ⟨hcursor, hbelow⟩ := (bufferInv_of_scanning hf).mp hs
    have hend : s.buf.length < s.bp + 8 := memRead_eq_none.mp hn
    refine bufferInv_nextRequest rfl ?_ (noFrame_drop hbelow hend)
    show (s.buf.drop (s.bp - 1)).length ≤ 8
    rw [List.length_drop]
    omega
  | yields _ _ hf _ _ e =>
    subst e
    exact bufferInv_of_scan_start hf rfl
  | rejects w hf hw hd e =>
    subst e
    obtain ⟨-, hbelow⟩ := (bufferInv_of_scanning hf).mp hs
    have hwhole : s.bp + 8 ≤ s.buf.length := (memRead_eq_some hw).1
    refine (bufferInv_of_scanning ?_).mpr ⟨.inr ?_, noFrameBelow_succ hbelow hw hd⟩
    · exact hf
    · show s.bp + 1 + 7 ≤ s.buf.length
      omega
  | noRequest hf _ e | foreign _ hf _ _ e | responded _ _ _ _ _ _ hf _ _ e =>
    subst e
    obtain ⟨hbp, hlen, hnone⟩ := quiet (by rw [hf]; nofun)
    exact bufferInv_nextRequest hbp hlen hnone
  | unsupported _ hf _ _ _ e | tooLarge _ hf _ _ _ _ e | reads _ _ _ _ _ _ hf _ _ _ _ _ _ _ e =>
    subst e
    have hns : Fsm.responding ≠ .scanning := nofun
    exact (bufferInv_of_not_scanning hns).mpr (quiet (by rw [hf]; nofun))

/-! ### Requests, registers and TXBUF -/

theorem requestInv_of_empty {s : State} (hp : s.pending = []) (hq : s.req = none) : s.RequestInv := by
  rw [State.RequestInv, hp, hq]
  exact ⟨nofun, nofun⟩

theorem requestInv_nextRequest {s : State} (h : ∀ r ∈ s.pending, r.wellFormed = true) : (nextRequest s).RequestInv := by
  rcases nextRequest_cases s with ⟨hp, e⟩ | ⟨r, rs, hp, e⟩
  · rw [e]
    exact requestInv_of_empty hp rfl
  · rw [hp, List.forall_mem_cons] at h
    rw [e]
    exact ⟨h.2, fun q hq => Option.some.inj hq ▸ h.1⟩

theorem StepTo.requestInv {s t : State} (h : StepTo s t) (hs : s.RequestInv) : t.RequestInv := by
  obtain ⟨hpending, hlatch⟩ := hs
  have accepted : ∀ {u f : Byte} {a n : Word} {t : State}, t.pending = s.pending →
      t.req = some (Request.ofFields u f a n) → t.RequestInv := fun hp hq =>
    ⟨hp ▸ hpending, fun r hr => Option.some.inj (hq.symm.trans hr) ▸ wellFormed_ofFields ..⟩
  cases h with
  | reset _ _ e | readFailed _ _ _ _ _ _ e | responseFails _ _ _ _ _ _ _ _ _ _ e =>
    subst e
    exact requestInv_of_empty rfl rfl
  | pollBegins _ _ _ _ _ _ _ _ e =>
    subst e
    exact ⟨nofun, hlatch⟩
  | elapses _ _ _ _ e | arrives _ _ _ _ e | writesUnitId _ _ _ _ _ e | writesSilence _ _ _ _ _ e | rejects _ _ _ _ e =>
    subst e
    exact ⟨hpending, hlatch⟩
  | yields w r _ _ hd e =>
    subst e
    refine ⟨fun q hq => ?_, hlatch⟩
    rcases List.mem_append.mp hq with hold | hnew
    · exact hpending q hold
    · exact List.mem_singleton.mp hnew ▸ wellFormed_of_decodeRequest hd
  | scanEnds _ _ e | noRequest _ _ e | foreign _ _ _ _ e | responded _ _ _ _ _ _ _ _ _ e =>
    subst e
    exact requestInv_nextRequest hpending
  | unsupported _ _ _ _ _ e | tooLarge _ _ _ _ _ _ e | reads _ _ _ _ _ _ _ _ _ _ _ _ _ _ e =>
    subst e
    exact accepted rfl rfl

theorem lengthInv_nextRequest {s : State} (h : s.LengthInv) : (nextRequest s).LengthInv := by
  obtain ⟨q, p, f, e, -⟩ := eq_of_nextRequest (s := s) rfl
  rw [e]
  exact h

theorem StepTo.lengthInv {s t : State} (h : StepTo s t) (hs : s.LengthInv) : t.LengthInv := by
  obtain ⟨hregs, hoffset, hresp⟩ := hs
  cases h with
  | reset _ _ e | readFailed _ _ _ _ _ _ e | responseFails _ _ _ _ _ _ _ _ _ _ e =>
    subst e
    exact ⟨Nat.zero_le _, rfl, Nat.zero_le _⟩
  | pollBegins _ _ _ _ _ _ _ _ e | elapses _ _ _ _ e | arrives _ _ _ _ e | writesUnitId _ _ _ _ _ e
  | writesSilence _ _ _ _ _ e | rejects _ _ _ _ e | yields _ _ _ _ _ e =>
    subst e
    exact ⟨hregs, hoffset, hresp⟩
  | scanEnds _ _ e | noRequest _ _ e | foreign _ _ _ _ e =>
    subst e
    exact lengthInv_nextRequest ⟨hregs, hoffset, hresp⟩
  | responded _ _ _ _ _ _ _ _ _ e =>
    subst e
    exact lengthInv_nextRequest ⟨hregs, hoffset, Nat.zero_le _⟩
  | unsupported _ _ _ _ _ e | tooLarge _ _ _ _ _ _ e =>
    subst e
    refine ⟨hregs, hoffset, ?_⟩
    show (exceptionFrame _ _ _).length ≤ 257
    rw [exceptionFrame_length]
    omega
  | reads r _ _ regs _ _ _ _ _ _ _ _ hoff hmax e =>
    subst e
    refine ⟨hmax, hoff, ?_⟩
    show (normalFrame r.unitId fnReadInput regs).length ≤ 257
    rw [normalFrame_length]
    omega

theorem controlInv_of_idle {s : State} (hf : s.fsm = .idle) :
    s.ControlInv ↔ s.req = none ∧ s.pending = [] ∧ s.resp = [] := by
  rw [State.ControlInv, hf]

theorem controlInv_of_scanning {s : State} (hf : s.fsm = .scanning) : s.ControlInv ↔ s.req = none ∧ s.resp = [] := by
  rw [State.ControlInv, hf]

theorem controlInv_of_dispatching {s : State} (hf : s.fsm = .dispatching) : s.ControlInv ↔ s.req ≠ none ∧ s.resp = [] := by
  rw [State.ControlInv, hf]

theorem controlInv_of_responding {s : State} (hf : s.fsm = .responding) :
    s.ControlInv ↔ s.req ≠ none ∧ ∃ i, decodeResponse s.resp = .ok i := by
  rw [State.ControlInv, hf]

theorem controlInv_nextRequest {s : State} (h : s.resp = []) : (nextRequest s).ControlInv := by
  rcases nextRequest_cases s with ⟨hp, e⟩ | ⟨r, rs, -, e⟩
  · rw [e]
    exact (controlInv_of_idle rfl).mpr ⟨rfl, hp, h⟩
  · rw [e]
    exact (controlInv_of_dispatching rfl).mpr ⟨nofun, h⟩

theorem StepTo.controlInv {s t : State} (h : StepTo s t) (hs : s.ControlInv) : t.ControlInv := by
  cases h with
  | reset _ _ e | readFailed _ _ _ _ _ _ e | responseFails _ _ _ _ _ _ _ _ _ _ e =>
    subst e
    exact ⟨rfl, rfl, rfl⟩
  | pollBegins _ _ _ _ _ hf _ _ e =>
    subst e
    obtain ⟨hreq, -, hresp⟩ := (controlInv_of_idle hf).mp hs
    exact ⟨hreq, hresp⟩
  | elapses _ _ _ _ e | arrives _ _ _ _ e | writesUnitId _ _ _ _ _ e | writesSilence _ _ _ _ _ e =>
    subst e
    exact hs
  | scanEnds hf _ e =>
    subst e
    exact controlInv_nextRequest ((controlInv_of_scanning hf).mp hs).2
  | yields _ _ hf _ _ e | rejects _ hf _ _ e =>
    subst e
    obtain ⟨hreq, hresp⟩ := (controlInv_of_scanning hf).mp hs
    refine (controlInv_of_scanning ?_).mpr ⟨hreq, hresp⟩
    exact hf
  | noRequest hf _ e | foreign _ hf _ _ e =>
    subst e
    exact controlInv_nextRequest ((controlInv_of_dispatching hf).mp hs).2
  | unsupported _ _ _ _ _ e =>
    subst e
    exact (controlInv_of_responding rfl).mpr ⟨nofun, _, decodeResponse_exceptionFrame ..⟩
  | tooLarge _ _ _ _ _ _ e =>
    subst e
    exact (controlInv_of_responding rfl).mpr ⟨nofun, _, decodeResponse_illegalDataValue _⟩
  | reads _ _ _ _ _ _ _ _ _ _ _ _ _ hmax e =>
    subst e
    exact (controlInv_of_responding rfl).mpr ⟨nofun, _, decodeResponse_normalFrame _ _ hmax⟩
  | responded _ _ _ _ _ _ _ _ _ e =>
    subst e
    exact controlInv_nextRequest rfl

/-! ### PacketStats -/

theorem sum_bumpStats (k : Signature) (l : List (Signature × Nat)) :
    ((bumpStats k l).map Prod.snd).sum = (l.map Prod.snd).sum + 1 := by
  induction l with
  | nil => rfl
  | cons e l ih =>
    obtain ⟨j, n⟩ := e
    rw [bumpStats]
    split_ifs with hkey hlt
    · simp only [List.map_cons, List.sum_cons]
      omega
    · simp only [List.map_cons, List.sum_cons]
      omega
    · simp only [List.map_cons, List.sum_cons, ih]
      omega

/-- R205: a step counts one Request or none, and a reset forgets them all. -/
theorem StepTo.stats_cases {s t : State} (h : StepTo s t) :
    (t.stats = s.stats ∧ t.total = s.total) ∨
    (∃ k, t.stats = bumpStats k s.stats ∧ t.total = s.total + 1) ∨
    ((∃ ms, s.world = .reset :: ms) ∧ t.stats = [] ∧ t.total = 0) := by
  cases h with
  | reset ms hw e =>
    subst e
    exact .inr (.inr ⟨⟨ms, hw⟩, rfl, rfl⟩)
  | foreign _ _ _ _ e =>
    obtain ⟨_, _, _, rfl, -⟩ := eq_of_nextRequest e
    exact .inr (.inl ⟨_, rfl, rfl⟩)
  | unsupported _ _ _ _ _ e | tooLarge _ _ _ _ _ _ e | reads _ _ _ _ _ _ _ _ _ _ _ _ _ _ e =>
    subst e
    exact .inr (.inl ⟨_, rfl, rfl⟩)
  | readFailed _ _ _ _ _ _ e | pollBegins _ _ _ _ _ _ _ _ e | elapses _ _ _ _ e | arrives _ _ _ _ e
  | writesUnitId _ _ _ _ _ e | writesSilence _ _ _ _ _ e | yields _ _ _ _ _ e | rejects _ _ _ _ e
  | responseFails _ _ _ _ _ _ _ _ _ _ e =>
    subst e
    exact .inl ⟨rfl, rfl⟩
  | scanEnds _ _ e | noRequest _ _ e | responded _ _ _ _ _ _ _ _ _ e =>
    obtain ⟨_, _, _, rfl, -⟩ := eq_of_nextRequest e
    exact .inl ⟨rfl, rfl⟩

/-! ### Silence and transmissions -/

theorem spans_append (a b : List Event) : spans (a ++ b) = spans a ++ spans b := List.filterMap_append

theorem spans_append_of_nil {a b : List Event} (h : spans b = []) : spans (a ++ b) = spans a := by
  rw [spans_append, h, List.append_nil]

/-- R189, R190: what a step does to the transmissions and the deadline. A reset forgets them; the host configures a block that has
not begun to poll; the response step transmits once; no other step transmits, and none but the beginning of a poll sets `running`
or leaves `Idle`. -/
theorem StepTo.silence_cases {s t : State} (h : StepTo s t) :
    ((∃ ms, s.world = .reset :: ms) ∧ t.trace = [] ∧ t.fsm = .idle) ∨
    (s.running = false ∧ t.trace = s.trace ∧ t.deadline = s.deadline ∧ t.fsm = s.fsm) ∨
    (spans t.trace = spans s.trace ∧ t.deadline = s.deadline ∧ t.cfgSilence = s.cfgSilence ∧
      (t.running = true ∨ t.running = s.running ∧ (s.fsm = .idle → t.fsm = .idle ∧ t.trace = s.trace))) ∨
    (s.fsm = .responding ∧ t.cfgSilence = s.cfgSilence ∧ t.running = s.running ∧
      ∃ t0 t1, spans t.trace = spans s.trace ++ [(t0, t1)] ∧ max s.now s.deadline ≤ t0 ∧ t0 ≤ t1 ∧
        t.deadline = t1 + s.cfgSilence) := by
  have busy : ∀ {f : Fsm} {P : Prop}, s.fsm = f → f ≠ .idle → s.fsm = .idle → P := fun hf hne hidle =>
    absurd (hf.symm.trans hidle) hne
  cases h with
  | reset ms hw e =>
    subst e
    exact .inl ⟨⟨ms, hw⟩, rfl, rfl⟩
  | writesUnitId _ _ _ hr _ e | writesSilence _ _ _ hr _ e =>
    subst e
    exact .inr (.inl ⟨hr, rfl, rfl, rfl⟩)
  | readFailed _ _ _ _ _ _ e | pollBegins _ _ _ _ _ _ _ _ e =>
    subst e
    exact .inr (.inr (.inl ⟨rfl, rfl, rfl, .inl rfl⟩))
  | elapses _ _ hf _ e | arrives _ _ hf _ e =>
    subst e
    exact .inr (.inr (.inl ⟨rfl, rfl, rfl, .inr ⟨rfl, fun _ => ⟨hf, rfl⟩⟩⟩))
  | yields _ _ hf _ _ e | rejects _ hf _ _ e | unsupported _ hf _ _ _ e | tooLarge _ hf _ _ _ _ e =>
    subst e
    exact .inr (.inr (.inl ⟨rfl, rfl, rfl, .inr ⟨rfl, busy hf nofun⟩⟩))
  | reads _ _ _ _ _ _ hf _ _ _ _ hcalls _ _ e =>
    subst e
    exact .inr (.inr (.inl ⟨spans_append_of_nil hcalls, rfl, rfl, .inr ⟨rfl, busy hf nofun⟩⟩))
  | scanEnds hf _ e | noRequest hf _ e | foreign _ hf _ _ e =>
    obtain ⟨_, _, _, rfl, -⟩ := eq_of_nextRequest e
    exact .inr (.inr (.inl ⟨rfl, rfl, rfl, .inr ⟨rfl, busy hf nofun⟩⟩))
  | responded _ _ _ _ start fin hf hgate hfin e =>
    obtain ⟨_, _, _, rfl, -⟩ := eq_of_nextRequest e
    exact .inr (.inr (.inr ⟨hf, rfl, rfl, start, fin, spans_append _ _, hgate, hfin, rfl⟩))
  | responseFails _ _ _ _ start fin _ hf hgate hfin e =>
    subst e
    exact .inr (.inr (.inr ⟨hf, rfl, rfl, start, fin, spans_append _ _, hgate, hfin, rfl⟩))

theorem silenceInv_of_no_output {s : State} (ht : s.trace = []) (hf : s.fsm = .idle) : s.SilenceInv := by
  rw [State.SilenceInv, ht]
  exact ⟨.nil, nofun, fun _ => ⟨hf, rfl⟩⟩

theorem StepTo.silenceInv {s t : State} (h : StepTo s t) (hs : s.SilenceInv) : t.SilenceInv := by
  obtain ⟨hapart, hended, hfresh⟩ := hs
  rcases h.silence_cases with ⟨-, htrace, hidle⟩ | ⟨hrun, htrace, -, hfsm⟩ | ⟨hspans, hdl, hsil, hrun⟩ |
    ⟨hf, hsil, hrun, t0, t1, hspans, hgate, hfin, hdl⟩
  · exact silenceInv_of_no_output htrace hidle
  · obtain ⟨hidle, hnil⟩ := hfresh hrun
    exact silenceInv_of_no_output (htrace.trans hnil) (hfsm.trans hidle)
  · rw [State.SilenceInv, hspans, hsil, hdl]
    refine ⟨hapart, hended, fun hnot => ?_⟩
    rcases hrun with hrun | ⟨hrun, hkeep⟩
    · rw [hrun] at hnot
      cases hnot
    · obtain ⟨hidle, hnil⟩ := hfresh (hrun.symm.trans hnot)
      exact ⟨(hkeep hidle).1, (hkeep hidle).2.trans hnil⟩
  · have hbefore : ∀ p ∈ spans s.trace, p.2 + s.cfgSilence ≤ t0 := fun p hp =>
      (hended p hp).2.trans ((Nat.le_max_right _ _).trans hgate)
    rw [State.SilenceInv, hspans, hsil, hdl]
    refine ⟨List.pairwise_append.mpr ⟨hapart, .cons nofun .nil, fun p hp q hq => ?_⟩, fun p hp => ?_, fun hnot => ?_⟩
    · rw [List.mem_singleton.mp hq]
      exact hbefore p hp
    · rcases List.mem_append.mp hp with hold | hnew
      · have := hbefore p hold
        exact ⟨(hended p hold).1, by omega⟩
      · rw [List.mem_singleton.mp hnew]
        exact ⟨hfin, Nat.le_refl _⟩
    · have hidle := (hfresh (hrun.symm.trans hnot)).1
      rw [hf] at hidle
      cases hidle

/-! ### The obligations -/

/-- Settles O54: inside a scan one more window is tested; at its end the retained tail holds none that was not. -/
theorem stepKeepsTheBufferBoundedAndFrameless : Obligations.StepKeepsTheBufferBoundedAndFrameless :=
  fun _ _ hs h => (stepTo_of_step h).bufferInv hs

/-- Settles O55: each of the three invariants is kept by every way a step can go. -/
theorem stepKeepsTheEnginesRegistersConsistent : Obligations.StepKeepsTheEnginesRegistersConsistent :=
  fun _ _ hreq hlen hcontrol h =>
    ⟨(stepTo_of_step h).requestInv hreq, (stepTo_of_step h).lengthInv hlen, (stepTo_of_step h).controlInv hcontrol⟩

/-- Settles O56: a step leaves the map alone, counts one Request, or is a reset. -/
theorem stepKeepsTheStatisticsExactAndGrowing : Obligations.StepKeepsTheStatisticsExactAndGrowing := by
  intro s t hs h
  obtain ⟨hwf, hsum⟩ := hs
  rcases (stepTo_of_step h).stats_cases with ⟨hstats, htotal⟩ | ⟨k, hstats, htotal⟩ | ⟨⟨ms, hw⟩, hstats, htotal⟩
  · rw [State.StatsInv, hstats, htotal]
    exact ⟨⟨hwf, hsum⟩, fun _ => ⟨Nat.le_refl _, fun _ => Nat.le_refl _⟩⟩
  · rw [State.StatsInv, hstats, htotal, sum_bumpStats, ← hsum]
    refine ⟨⟨(bumpStats_wf k s.stats hwf).1, rfl⟩, fun _ => ⟨Nat.le_succ _, fun j => ?_⟩⟩
    rw [statsCount_bumpStats k j s.stats hwf]
    exact Nat.le_add_right _ _
  · rw [State.StatsInv, hstats, htotal]
    exact ⟨⟨⟨.nil, nofun⟩, rfl⟩, fun hno => absurd hw (hno ms)⟩

/-- Settles O57: the deadline lies beyond every earlier end, and a transmission begins not before it. -/
theorem stepKeepsTheSilenceBetweenTransmissions : Obligations.StepKeepsTheSilenceBetweenTransmissions :=
  fun _ _ hs h => (stepTo_of_step h).silenceInv hs

/-- Settles O58: of the ways a step can go, only that of a response transmits. -/
theorem onlyTheResponseStepTransmits : Obligations.OnlyTheResponseStepTransmits := by
  intro s t h hno
  rcases (stepTo_of_step h).silence_cases with ⟨⟨ms, hw⟩, -⟩ | ⟨-, htrace, hdl, -⟩ | ⟨hspans, hdl, -⟩ |
    ⟨hf, -, -, t0, t1, hspans, hgate, hfin, hdl⟩
  · exact absurd hw (hno ms)
  · exact .inl ⟨by rw [htrace], hdl⟩
  · exact .inl ⟨hspans, hdl⟩
  · exact .inr ⟨hf, t0, t1, hspans, hgate, hfin, hdl⟩

/-- Settles O52: the one refusal is that of a late configuration. -/
theorem nothingIsFatal : Obligations.NothingIsFatal := by
  intro s hconf
  rcases step_total s with ⟨t, ht, -⟩ | ⟨-, -, hrun, ms, ⟨v, hw⟩ | ⟨k, hw⟩⟩
  · exact ⟨t, ht⟩
  · exact absurd hw (hconf hrun v ms).1
  · exact absurd hw ((hconf hrun 0 ms).2 k)

/-- Settles O59: time passes in `Idle` and while a response is sent; the host writes a register only before the first poll. -/
theorem timeRunsForwardAndConfigurationStays : Obligations.TimeRunsForwardAndConfigurationStays := by
  intro s t h
  cases stepTo_of_step h with
  | reset ms hw e =>
    subst e
    exact ⟨Nat.le_refl _, rfl, fun _ hno => absurd hw (hno ms)⟩
  | writesUnitId _ _ _ hr _ e | writesSilence _ _ _ hr _ e =>
    subst e
    refine ⟨Nat.le_refl _, rfl, fun hrun _ => ?_⟩
    rw [hr] at hrun
    cases hrun
  | elapses _ k _ _ e =>
    subst e
    exact ⟨Nat.le_add_right _ k, rfl, fun hrun _ => ⟨hrun, rfl, rfl⟩⟩
  | readFailed _ _ _ _ _ _ e | pollBegins _ _ _ _ _ _ _ _ e =>
    subst e
    exact ⟨Nat.le_refl _, rfl, fun _ _ => ⟨rfl, rfl, rfl⟩⟩
  | arrives _ _ _ _ e | yields _ _ _ _ _ e | rejects _ _ _ _ e | unsupported _ _ _ _ _ e | tooLarge _ _ _ _ _ _ e
  | reads _ _ _ _ _ _ _ _ _ _ _ _ _ _ e =>
    subst e
    exact ⟨Nat.le_refl _, rfl, fun hrun _ => ⟨hrun, rfl, rfl⟩⟩
  | scanEnds _ _ e | noRequest _ _ e | foreign _ _ _ _ e =>
    obtain ⟨_, _, _, rfl, -⟩ := eq_of_nextRequest e
    exact ⟨Nat.le_refl _, rfl, fun hrun _ => ⟨hrun, rfl, rfl⟩⟩
  | responded _ _ _ _ _ _ _ hgate hfin e =>
    obtain ⟨_, _, _, rfl, -⟩ := eq_of_nextRequest e
    exact ⟨(Nat.le_max_left _ _).trans (hgate.trans hfin), rfl, fun hrun _ => ⟨hrun, rfl, rfl⟩⟩
  | responseFails _ _ _ _ _ _ _ _ hgate hfin e =>
    subst e
    exact ⟨(Nat.le_max_left _ _).trans (hgate.trans hfin), rfl, fun hrun _ => ⟨hrun, rfl, rfl⟩⟩

/-- Settles O60: nothing is held, nothing is counted, nothing was sent, and nothing is asked for. -/
theorem resetMeetsEveryInvariant : Obligations.ResetMeetsEveryInvariant :=
  ⟨bufferInv_of_empty rfl rfl, requestInv_of_empty rfl rfl, ⟨Nat.zero_le _, rfl, Nat.zero_le _⟩, ⟨rfl, rfl, rfl⟩,
    ⟨⟨.nil, nofun⟩, rfl⟩, silenceInv_of_no_output rfl rfl, nofun⟩

end Sys2Proof.Machine
end

section
/-! The transitions of `S.fsm` (46_slave_engine.md R211), one lemma for each state a step can leave; then O50. -/

namespace Sys2Proof.Machine

/-- What a step takes when it goes on to the next waiting Request. -/
def TakesNext (s t : State) : Prop := ∃ r rs, s.pending = r :: rs ∧ t.req = some r ∧ t.pending = rs

/-- The return from a request, by what waits (R201): the next Request is taken, or the engine is `Idle`. -/
theorem takesNext_or_idle {s u t : State} (h : t = nextRequest u) (hu : u.pending = s.pending) :
    (t.fsm = .dispatching ∧ TakesNext s t) ∨ (t.fsm = .idle ∧ s.pending = []) := by
  rcases nextRequest_cases u with ⟨hp, e⟩ | ⟨r, rs, hp, e⟩
  · exact .inr ⟨by rw [h, e], hu.symm.trans hp⟩
  · exact .inl ⟨by rw [h, e], r, rs, hu.symm.trans hp, by rw [h, e], by rw [h, e]⟩

/-- From `Idle`: a poll has read its chunk, or the move was another one, or the read failed. -/
theorem StepTo.from_idle {s t : State} (h : StepTo s t) (hf : s.fsm = .idle) :
    (t.fsm = .idle ∧ ((∃ m ms, s.world = m :: ms ∧ m ≠ .poll) ∨ t.buf = [])) ∨
    (t.fsm = .scanning ∧ (s.world = [] ∨ ∃ ms, s.world = .poll :: ms) ∧
      ∃ chunk, s.rx = chunk ++ t.rx ∧ t.buf = s.buf ++ chunk ∧ t.bp = 0 ∧ t.pending = []) := by
  cases h with
  | reset ms hw e =>
    subst e
    exact .inl ⟨rfl, .inl ⟨_, ms, hw, nofun⟩⟩
  | readFailed _ _ _ _ _ _ e =>
    subst e
    exact .inl ⟨rfl, .inr rfl⟩
  | pollBegins w _ _ _ chunk _ hw hc e =>
    subst e
    exact .inr ⟨rfl, hw.imp And.left fun hw => ⟨w, hw⟩, chunk, hc, rfl, rfl, rfl⟩
  | elapses ms _ _ hw e | arrives ms _ _ hw e | writesUnitId ms _ _ _ hw e | writesSilence ms _ _ _ hw e =>
    subst e
    exact .inl ⟨hf, .inl ⟨_, ms, hw, nofun⟩⟩
  | scanEnds hf' | yields _ _ hf' | rejects _ hf' | noRequest hf' | foreign _ hf' | unsupported _ hf' | tooLarge _ hf'
  | reads _ _ _ _ _ _ hf' | responded _ _ _ _ _ _ hf' | responseFails _ _ _ _ _ _ _ hf' =>
    rw [hf] at hf'
    cases hf'

/-- From `Scanning`: it goes on while a whole window is left. -/
theorem StepTo.from_scanning {s t : State} (h : StepTo s t) (hf : s.fsm = .scanning) :
    (t.fsm = .scanning ∧ s.bp + 8 ≤ s.buf.length) ∨
    (t.fsm = .dispatching ∧ s.buf.length < s.bp + 8 ∧ TakesNext s t) ∨
    (t.fsm = .idle ∧ ((∃ ms, s.world = .reset :: ms) ∨ (s.buf.length < s.bp + 8 ∧ s.pending = []))) := by
  cases h with
  | reset ms hw e =>
    subst e
    exact .inr (.inr ⟨rfl, .inl ⟨ms, hw⟩⟩)
  | scanEnds _ hn e =>
    have hend : s.buf.length < s.bp + 8 := memRead_eq_none.mp hn
    rcases takesNext_or_idle e rfl with ⟨hd, htakes⟩ | ⟨hi, hp⟩
    · exact .inr (.inl ⟨hd, hend, htakes⟩)
    · exact .inr (.inr ⟨hi, .inr ⟨hend, hp⟩⟩)
  | yields _ _ _ hw _ e | rejects _ _ hw _ e =>
    subst e
    exact .inl ⟨hf, (memRead_eq_some hw).1⟩
  | readFailed _ _ _ _ hf' | pollBegins _ _ _ _ _ hf' | elapses _ _ hf' | arrives _ _ hf' | writesUnitId _ _ hf'
  | writesSilence _ _ hf' | noRequest hf' | foreign _ hf' | unsupported _ hf' | tooLarge _ hf' | reads _ _ _ _ _ _ hf'
  | responded _ _ _ _ _ _ hf' | responseFails _ _ _ _ _ _ _ hf' =>
    rw [hf] at hf'
    cases hf'

/-- From `Dispatching`: a response is due exactly for a Request to this unit. -/
theorem StepTo.from_dispatching {s t : State} (h : StepTo s t) (hf : s.fsm = .dispatching) :
    (t.fsm = .responding ∧ ∃ r, s.req = some r ∧ r.unitId = s.cfgUnitId) ∨
    (t.fsm = .dispatching ∧ (∀ r, s.req = some r → r.unitId ≠ s.cfgUnitId) ∧ TakesNext s t) ∨
    (t.fsm = .idle ∧ ((∃ ms, s.world = .reset :: ms) ∨
      ((∀ r, s.req = some r → r.unitId ≠ s.cfgUnitId) ∧ s.pending = []))) := by
  cases h with
  | reset ms hw e =>
    subst e
    exact .inr (.inr ⟨rfl, .inl ⟨ms, hw⟩⟩)
  | noRequest _ hq e =>
    have hnone : ∀ r, s.req = some r → r.unitId ≠ s.cfgUnitId := fun r hr => by
      rw [hq] at hr
      cases hr
    rcases takesNext_or_idle e rfl with ⟨hd, htakes⟩ | ⟨hi, hp⟩
    · exact .inr (.inl ⟨hd, hnone, htakes⟩)
    · exact .inr (.inr ⟨hi, .inr ⟨hnone, hp⟩⟩)
  | foreign r _ hq hu e =>
    have hforeign : ∀ q, s.req = some q → q.unitId ≠ s.cfgUnitId := fun q hr => by
      obtain rfl : r = q := Option.some.inj (hq.symm.trans hr)
      exact hu
    rcases takesNext_or_idle e rfl with ⟨hd, htakes⟩ | ⟨hi, hp⟩
    · exact .inr (.inl ⟨hd, hforeign, htakes⟩)
    · exact .inr (.inr ⟨hi, .inr ⟨hforeign, hp⟩⟩)
  | unsupported r _ hq hu _ e | tooLarge r _ hq hu _ _ e | reads r _ _ _ _ _ _ hq hu _ _ _ _ _ e =>
    subst e
    exact .inl ⟨rfl, r, hq, hu⟩
  | readFailed _ _ _ _ hf' | pollBegins _ _ _ _ _ hf' | elapses _ _ hf' | arrives _ _ hf' | writesUnitId _ _ hf'
  | writesSilence _ _ hf' | scanEnds hf' | yields _ _ hf' | rejects _ hf'
  | responded _ _ _ _ _ _ hf' | responseFails _ _ _ _ _ _ _ hf' =>
    rw [hf] at hf'
    cases hf'

/-- From `Responding`: TXBUF is written, and the engine goes on, or the write failed. -/
theorem StepTo.from_responding {s t : State} (h : StepTo s t) (hf : s.fsm = .responding) :
    (t.fsm = .dispatching ∧ (∃ t0 t1, t.trace = s.trace ++ [.tx s.resp t0 t1]) ∧ TakesNext s t) ∨
    (t.fsm = .idle ∧ ((∃ ms, s.world = .reset :: ms) ∨
      ((∃ t0 t1, t.trace = s.trace ++ [.tx s.resp t0 t1]) ∧ s.pending = []) ∨
      ∃ gone t0 t1, t.trace = s.trace ++ [.txFailed s.resp gone t0 t1])) := by
  cases h with
  | reset ms hw e =>
    subst e
    exact .inr ⟨rfl, .inl ⟨ms, hw⟩⟩
  | responded _ _ _ _ t0 t1 _ _ _ e =>
    have htx : t.trace = s.trace ++ [.tx s.resp t0 t1] := by
      obtain ⟨_, _, _, rfl, -⟩ := eq_of_nextRequest e
      rfl
    rcases takesNext_or_idle e rfl with ⟨hd, htakes⟩ | ⟨hi, hp⟩
    · exact .inl ⟨hd, ⟨t0, t1, htx⟩, htakes⟩
    · exact .inr ⟨hi, .inr (.inl ⟨⟨t0, t1, htx⟩, hp⟩)⟩
  | responseFails _ _ _ _ t0 t1 gone _ _ _ e =>
    subst e
    exact .inr ⟨rfl, .inr (.inr ⟨gone, t0, t1, rfl⟩)⟩
  | readFailed _ _ _ _ hf' | pollBegins _ _ _ _ _ hf' | elapses _ _ hf' | arrives _ _ hf' | writesUnitId _ _ hf'
  | writesSilence _ _ hf' | scanEnds hf' | yields _ _ hf' | rejects _ hf' | noRequest hf' | foreign _ hf'
  | unsupported _ hf' | tooLarge _ hf' | reads _ _ _ _ _ _ hf' =>
    rw [hf] at hf'
    cases hf'

/-- Settles O50: the ways a step can go, by the state it leaves. -/
theorem engineStateMovesOnlyAlongItsTransitions : Obligations.EngineStateMovesOnlyAlongItsTransitions :=
  fun _ _ h => ⟨(stepTo_of_step h).from_idle, (stepTo_of_step h).from_scanning, (stepTo_of_step h).from_dispatching,
    (stepTo_of_step h).from_responding⟩

end Sys2Proof.Machine
end

section
/-! The Register Value Source and the assembly (43_register_value_source.md R150 to R158): one call, the calls of a whole block, and
a block that does not depend on what the engine holds, then O20, O21, O39 and O19. -/

namespace Sys2Proof.Machine

/-! ### One call -/

theorem drawReading_of_fixed {s : State} {v : Long} {vs : List Long} (h : s.oracle.reading = v :: vs) :
    drawReading s = (v, { s with oracle := { s.oracle with reading := vs } }) := by
  simp only [drawReading, h]

theorem rvsRead_of_known {address offset : Word} {s : State} (h : address.toNat + offset.toNat ∈ s.cfg.known) :
    rvsRead address offset s = (some (drawReading (record (.call address offset) s)).1,
      (drawReading (record (.call address offset) s)).2) :=
  if_pos h

theorem rvsRead_of_fixed {address offset : Word} {s : State} {v : Long} {vs : List Long}
    (h : address.toNat + offset.toNat ∈ s.cfg.known) (hv : s.oracle.reading = v :: vs) :
    rvsRead address offset s = (some v,
      { s with oracle := { s.oracle with reading := vs }, trace := s.trace ++ [.call address offset] }) := by
  rw [rvsRead_of_known h, drawReading_of_fixed (s := record (.call address offset) s) hv]
  rfl

theorem rvsRead_of_unknown {address offset : Word} {s : State} (h : address.toNat + offset.toNat ∉ s.cfg.known) :
    rvsRead address offset s = (none, record (.call address offset) s) :=
  if_neg h

theorem exec_rvsPack {address offset : Word} {s t : State} {v : Option Long} (h : rvsRead address offset s = (v, t)) :
    exec (.rvsPack address offset) s = .next { t with
      regs := t.regs ++ packedRegs v, ret := .written (BitVec.ofNat 16 (packedRegs v).length) } := by
  show execRvsPack address offset s = _
  rw [execRvsPack, rvsPack, h]
  rfl

/-! ### The calls of a block (R155, R158) -/

/-- The registers that the answers of the calls fill, in order. -/
def filled (vs : List (Option Long)) : List Word := (vs.map packedRegs).flatten

/-- The calls those answers were given to: each at the offset where its registers go. -/
def callsOf (address : Word) (vs : List (Option Long)) : List Event :=
  (List.range vs.length).map fun i => .call address (BitVec.ofNat 16 (filled (vs.take i)).length)

theorem filled_concat (vs : List (Option Long)) (v : Option Long) : filled (vs ++ [v]) = filled vs ++ packedRegs v := by
  simp [filled]

theorem callsOf_concat (address : Word) (vs : List (Option Long)) (v : Option Long) :
    callsOf address (vs ++ [v]) = callsOf address vs ++ [.call address (BitVec.ofNat 16 (filled vs).length)] := by
  have hbefore : ∀ i ∈ List.range vs.length, (vs ++ [v]).take i = vs.take i := fun i hi =>
    List.take_append_of_le_length (List.mem_range.mp hi).le
  have hlast : (vs ++ [v]).take vs.length = vs := List.take_left
  simp only [callsOf, List.length_append, List.length_singleton, List.range_succ, List.map_append, List.map_cons,
    List.map_nil, hlast]
  congr 1
  exact List.map_congr_left fun i hi => by rw [hbefore i hi]

/-- The assembly of `count` registers in `s` has led to `t` by the calls that were answered by `vs`. -/
structure AssembledBy (address count : Word) (s : State) (vs : List (Option Long)) (t : State) : Prop where
  regs : t.regs = filled vs
  offset : t.offset.toNat = t.regs.length
  trace : t.trace = s.trace ++ callsOf address vs
  cfg : t.cfg = s.cfg
  calls : ∀ i, i < vs.length → (filled (vs.take i)).length < count.toNat ∧
    (vs[i]? = some none ↔ address.toNat + (filled (vs.take i)).length ∉ s.cfg.known)

theorem assembledBy_nil (address count : Word) (s : State) :
    AssembledBy address count s [] { s with regs := [], offset := 0 } :=
  ⟨rfl, rfl, (List.append_nil _).symm, rfl, nofun⟩

/-- One iteration: one more call, at the offset reached so far. -/
theorem AssembledBy.assembleOnce {address count : Word} {s t : State} {vs : List (Option Long)}
    (h : AssembledBy address count s vs t) (hc : count ≤ maxCount) (hmore : more count t = true) :
    ∃ v, AssembledBy address count s (vs ++ [v]) (assembleOnce address t) := by
  have hlt : t.offset.toNat < count.toNat := by simpa [more, BitVec.lt_def] using hmore
  have hmax : count.toNat ≤ 125 := hc
  have hoff : t.offset.toNat = (filled vs).length := h.offset.trans (congrArg List.length h.regs)
  have hword : BitVec.ofNat 16 (filled vs).length = t.offset := by rw [← hoff, BitVec.ofNat_toNat, BitVec.setWidth_eq]
  obtain ⟨o, n, v, e, hv⟩ := assembleOnce_spec address t
  have hone := packedRegs_length v
  refine ⟨v, ?_⟩
  rw [e]
  refine ⟨?_, ?_, ?_, h.cfg, fun i hi => ?_⟩
  · rw [filled_concat, ← h.regs]
  · have hnowrap : (t.offset + BitVec.ofNat 16 (packedRegs v).length).toNat = t.offset.toNat + (packedRegs v).length := by
      rw [BitVec.toNat_add, BitVec.toNat_ofNat]
      omega
    rw [hnowrap, h.offset, List.length_append]
  · rw [callsOf_concat, hword, ← List.append_assoc, ← h.trace]
  · rw [List.length_append, List.length_singleton] at hi
    rcases Nat.lt_succ_iff_lt_or_eq.mp hi with hbefore | rfl
    · rw [List.take_append_of_le_length hbefore.le, List.getElem?_append_left hbefore]
      exact h.calls i hbefore
    · rw [List.take_left, List.getElem?_concat_length, ← hoff, Option.some.injEq, ← h.cfg]
      exact ⟨hlt, hv⟩

theorem AssembledBy.assembleLoop {address count : Word} {s t : State} {vs : List (Option Long)} (hc : count ≤ maxCount)
    (k : Nat) (h : AssembledBy address count s vs t) :
    ∃ ws, AssembledBy address count s ws (assembleLoop k address count t) := by
  induction k generalizing t vs with
  | zero => exact ⟨vs, h⟩
  | succ k ih =>
    rw [Machine.assembleLoop]
    split
    case isTrue hmore =>
      obtain ⟨v, hone⟩ := h.assembleOnce hc hmore
      exact ih hone
    case isFalse => exact ⟨vs, h⟩

theorem exists_assembledBy (address : Word) {count : Word} (hc : count ≤ maxCount) (s : State) :
    ∃ vs, AssembledBy address count s vs (assemble address count s) :=
  (assembledBy_nil address count s).assembleLoop hc count.toNat

/-! ### The block does not depend on the statistics, the latch and the engine's state -/

/-- The state with other statistics, another latch and another state of the engine. -/
def State.reframe (stats : List (Signature × Nat)) (total : Nat) (q : Option Request) (f : Fsm) (s : State) : State :=
  { s with stats := stats, total := total, req := q, fsm := f }

section Reframe

variable (m : List (Signature × Nat)) (n : Nat) (q : Option Request) (f : Fsm)

theorem drawReading_reframe (s : State) :
    drawReading (s.reframe m n q f) = ((drawReading s).1, (drawReading s).2.reframe m n q f) := by
  cases h : s.oracle.reading with
  | nil => simp only [drawReading, State.reframe, h]
  | cons v vs => simp only [drawReading, State.reframe, h]

theorem rvsRead_reframe (address offset : Word) (s : State) :
    rvsRead address offset (s.reframe m n q f) =
      ((rvsRead address offset s).1, (rvsRead address offset s).2.reframe m n q f) := by
  by_cases h : address.toNat + offset.toNat ∈ s.cfg.known
  · have hdraw : drawReading (record (.call address offset) (s.reframe m n q f)) = _ :=
      drawReading_reframe m n q f (record (.call address offset) s)
    rw [rvsRead_of_known h, rvsRead_of_known (s := s.reframe m n q f) h, hdraw]
  · rw [rvsRead_of_unknown h, rvsRead_of_unknown (s := s.reframe m n q f) h]
    rfl

theorem assembleOnce_reframe (address : Word) (s : State) :
    assembleOnce address (s.reframe m n q f) = (assembleOnce address s).reframe m n q f := by
  have h : rvsRead address (s.reframe m n q f).offset (s.reframe m n q f) = _ := rvsRead_reframe m n q f address s.offset s
  rw [assembleOnce, rvsPack, h]
  rfl

theorem assembleLoop_reframe (k : Nat) (address count : Word) (s : State) :
    assembleLoop k address count (s.reframe m n q f) = (assembleLoop k address count s).reframe m n q f := by
  induction k generalizing s with
  | zero => rfl
  | succ k ih =>
    have hmore : more count (s.reframe m n q f) = more count s := rfl
    rw [assembleLoop, assembleLoop, hmore, assembleOnce_reframe, ih]
    split <;> rfl

theorem assemble_reframe (address count : Word) (s : State) :
    assemble address count (s.reframe m n q f) = (assemble address count s).reframe m n q f :=
  assembleLoop_reframe m n q f count.toNat address count { s with regs := [], offset := 0 }

end Reframe

/-- R205: an accepted Request is latched and counted, which the block does not see. -/
theorem assemble_acceptRequest (u f : Byte) (a n : Word) (s : State) :
    assemble a n (acceptRequest u f a n s) = (assemble a n s).reframe (bumpStats ⟨u, f, a, n⟩ s.stats) (s.total + 1)
      (some (Request.ofFields u f a n)) .dispatching :=
  assemble_reframe _ _ _ _ a n s

/-! ### The obligations -/

theorem exec_reqReadInputRegisters (u : Byte) (a n : Word) (s : State) : exec (.reqReadInputRegisters u a n) s = .next
    { encodeNormal u fnReadInput (assemble a n (acceptRequest u fnReadInput a n s)).regs
        (assemble a n (acceptRequest u fnReadInput a n s)) with fsm := .responding } := rfl

theorem assemble_zero (address : Word) (s : State) : assemble address 0 s = { s with regs := [], offset := 0 } := rfl

/-- Settles O20: the sizes are those of `assemble_spec`; with a count of 0 the loop makes no iteration. -/
theorem assemblyEndsAtTheCountOrOneRegisterPastIt : Obligations.AssemblyEndsAtTheCountOrOneRegisterPastIt := by
  refine ⟨fun address count s hc => ?_, fun address s => ?_, fun u address s => ?_⟩
  · obtain ⟨oracle, draws, regs, off, calls, hblock, hcalls, hoff, hmin, hmax⟩ := assemble_spec address count hc s
    refine ⟨regs, off, oracle, draws, calls, ?_, hoff, hmin, hmax, hcalls⟩
    rw [exec_engAssemble, hblock]
    rfl
  · rw [exec_engAssemble, assemble_zero]
    rfl
  · refine ⟨_, exec_reqReadInputRegisters u address 0 s, ?_, rfl, rfl, rfl⟩
    rw [assemble_zero]
    exact normalFrame_eq u fnReadInput []

/-- Settles O21: what each iteration adds is kept to the end of the loop, whose sizes are those of `assemble_spec`. -/
theorem everyCallIsMadeAtTheRegisterItFills : Obligations.EveryCallIsMadeAtTheRegisterItFills := by
  intro address count s hc
  obtain ⟨vs, hby⟩ := exists_assembledBy address hc s
  obtain ⟨_, _, regs, _, _, hblock, -, -, hmin, hmax⟩ := assemble_spec address count hc s
  have hregs : (assemble address count s).regs = regs := by rw [hblock]
  rw [← hregs] at hmin hmax
  exact ⟨_, vs, exec_engAssemble address count s, hby.regs, rfl, hby.offset, hmin, hmax, hby.trace, hby.calls⟩

/-- Settles O39: the block is the one `ENG.ASSEMBLE` builds, and the response carries it. -/
theorem acceptedRequestPreparesTheNormalResponse : Obligations.AcceptedRequestPreparesTheNormalResponse := by
  intro u a n s hc
  obtain ⟨oracle, draws, regs, off, calls, hblock, hcalls, hoff, hmin, hmax⟩ := assemble_spec a n hc s
  refine ⟨regs, off, oracle, draws, calls, ?_, ?_, hoff, hmin, hmax, hcalls⟩
  · rw [exec_reqReadInputRegisters, assemble_acceptRequest, hblock]
    rfl
  · rw [exec_engAssemble, hblock]
    rfl

/-- Settles O19: a recognised sum is answered by a reading, the one fixed in advance if there is one; any other by none. -/
theorem valueSourceCallAppendsOneOrTwoRegisters : Obligations.ValueSourceCallAppendsOneOrTwoRegisters := by
  intro address offset s
  refine ⟨fun hknown => ?_, fun v vs hknown hv => ?_, fun vs hknown hv => ?_, fun hunknown => ?_⟩
  · obtain ⟨oracle, draws, answer, h, hanswer⟩ := rvsRead_spec address offset s
    obtain ⟨v, rfl⟩ := Option.ne_none_iff_exists'.mp fun hnone => hanswer.mp hnone hknown
    exact ⟨v, oracle, draws, exec_rvsPack h⟩
  · exact exec_rvsPack (rvsRead_of_fixed hknown hv)
  · exact exec_rvsPack (rvsRead_of_fixed hknown hv)
  · exact exec_rvsPack (rvsRead_of_unknown hunknown)

end Sys2Proof.Machine
end

section
/-! The Silence Timer and the sending of a response (45_silence_timer.md R185 to R189, 46_slave_engine.md R210): the gate and the
write with their answers fixed in advance, and a response row as the sending of its frame; then O41, O26, O27, O28 and O29. -/

namespace Sys2Proof.Machine

/-! ### The threshold (R186) -/

theorem silenceThreshold_of_bitClock {c : Config} (h : c.tickHz = none) : silenceThreshold c = 38 * c.ticksPerBit := by
  rw [silenceThreshold, h, silenceBits]

/-- Rounding up: the least number of ticks that lasts 38 bit times. -/
theorem silenceThreshold_of_freeRunning {c : Config} {f : Nat} (h : c.tickHz = some f) (hbaud : 0 < c.baud) :
    38 * f ≤ silenceThreshold c * c.baud ∧ silenceThreshold c * c.baud < 38 * f + c.baud := by
  have hdef : silenceThreshold c = (38 * f + c.baud - 1) / c.baud := by rw [silenceThreshold, h, silenceBits]
  have hdiv := Nat.div_add_mod (38 * f + c.baud - 1) c.baud
  have hrem := Nat.mod_lt (38 * f + c.baud - 1) hbaud
  rw [hdef, Nat.mul_comm ((38 * f + c.baud - 1) / c.baud)]
  omega

/-! ### The gate and the write -/

theorem exec_silGate (s : State) : exec .silGate s = .next (setResult .unit (silenceGate s)) := rfl

theorem exec_engSend (resp : List Byte) (s : State) :
    exec (.engSend resp) s = .next (setResult (.bool (send resp s).1) (send resp s).2) := rfl

theorem silenceGate_of_fixed {s : State} {g : GateAnswer} {gs : List GateAnswer} (h : s.oracle.gate = g :: gs) :
    silenceGate s = { s with
      now := max s.now s.deadline + g.late, rx := s.rx ++ g.arrived, oracle := { s.oracle with gate := gs } } := by
  simp only [silenceGate, drawGate, h, receive]

theorem drawWrite_of_fixed {s : State} {w : WriteAnswer} {ws : List WriteAnswer} (h : s.oracle.write = w :: ws) :
    drawWrite s = (w, { s with oracle := { s.oracle with write := ws } }) := by
  simp only [drawWrite, h]

theorem drawWrite_silenceGate_of_fixed {s : State} {g : GateAnswer} {gs : List GateAnswer} {w : WriteAnswer}
    {ws : List WriteAnswer} (hgate : s.oracle.gate = g :: gs) (hwrite : s.oracle.write = w :: ws) :
    drawWrite (silenceGate s) = (w, { s with
      now := max s.now s.deadline + g.late, rx := s.rx ++ g.arrived,
      oracle := { s.oracle with gate := gs, write := ws } }) := by
  rw [silenceGate_of_fixed hgate]
  exact drawWrite_of_fixed hwrite

/-- What `ENG.SEND` does once the gate has returned and the write has succeeded. -/
def sent (resp : List Byte) (ticks : Nat) (arrived : List Byte) (g t : State) : State :=
  { t with now := g.now + ticks, rx := t.rx ++ arrived, resp := [], deadline := g.now + ticks + t.cfgSilence,
           trace := t.trace ++ [.tx resp g.now (g.now + ticks)] }

/-- What it does once the write has failed (R189). -/
def sendFailed (resp : List Byte) (ticks gone : Nat) (arrived : List Byte) (g t : State) : State :=
  { t with now := g.now + ticks, rx := t.rx ++ arrived, deadline := g.now + ticks + t.cfgSilence,
           trace := t.trace ++ [.txFailed resp (min gone resp.length) g.now (g.now + ticks)] }

theorem send_of_ok {s t : State} {ticks : Nat} {arrived : List Byte} (resp : List Byte)
    (h : drawWrite (silenceGate s) = (.ok ticks arrived, t)) :
    send resp s = (true, sent resp ticks arrived (silenceGate s) t) := by
  simp only [send, h]
  rfl

theorem send_of_fail {s t : State} {ticks gone : Nat} {arrived : List Byte} (resp : List Byte)
    (h : drawWrite (silenceGate s) = (.fail ticks gone arrived, t)) :
    send resp s = (false, sendFailed resp ticks gone arrived (silenceGate s) t) := by
  simp only [send, h]
  rfl

/-! ### A response row sends its frame -/

theorem exec_rspNormal {regs : List Word} (h : regs.length ≤ maxEncodable) (u : Byte) (s : State) :
    exec (.rspNormal u regs) s =
      .next (respond (normalFrame u fnReadInput regs) (encodeNormal u fnReadInput regs s)) :=
  if_neg (Nat.not_lt.mpr h)

/-- The three response rows (R165, R169): the frame is put in TXBUF and sent from there. -/
theorem exec_of_response_row {i : Instr} {frame : List Byte}
    (hi : (∃ u regs, i = .rspNormal u regs ∧ regs.length ≤ 126) ∨ (∃ u f7, i = .rspExcIllegalFunction u f7) ∨
      (∃ u, i = .rspExcIllegalDataValue u))
    (henc : encode i = some frame) (s : State) : ∃ c, exec i s = .next (respond frame { s with resp := frame, crc := c }) := by
  rcases hi with ⟨u, regs, rfl, hlen⟩ | ⟨u, f7, rfl⟩ | ⟨u, rfl⟩
  · cases henc
    exact ⟨_, exec_rspNormal (Nat.le_succ_of_le hlen) u s⟩
  · cases henc
    exact ⟨_, rfl⟩
  · cases henc
    exact ⟨_, rfl⟩

/-! ### The obligations -/

/-- Settles O41: everything that can happen to a prepared response, and the return from the request. -/
theorem responseRowsAreSentOnceAndReturn : Obligations.ResponseRowsAreSentOnceAndReturn := by
  intro i frame s hi henc
  obtain ⟨c, hexec⟩ := exec_of_response_row hi henc s
  obtain ⟨o, n, arrived, t0, t1, hgate, hfin, h | ⟨gone, hgone, h⟩⟩ := respond_spec frame { s with resp := frame, crc := c }
  · refine ⟨_, t0, t1, c, arrived, o, n, hexec.trans (congrArg Host.Outcome.next h), hgate, hfin, .inl ?_⟩
    rcases nextRequest_cases { s with
        resp := [], crc := c, oracle := o, draws := n, now := t1, rx := s.rx ++ arrived,
        trace := s.trace ++ [.tx frame t0 t1], deadline := t1 + s.cfgSilence } with ⟨hp, e⟩ | ⟨r, rs, hp, e⟩
    · have hp : s.pending = [] := hp
      exact ⟨none, s.pending, .idle, e, fun _ => ⟨rfl, hp, rfl⟩, fun r rs hp' => by rw [hp] at hp'; cases hp'⟩
    · have hp : s.pending = r :: rs := hp
      refine ⟨some r, rs, .dispatching, e, fun hp' => ?_, fun q qs hp' => ?_⟩
      · rw [hp] at hp'
        cases hp'
      · obtain ⟨rfl, rfl⟩ := List.cons.inj (hp.symm.trans hp')
        exact ⟨rfl, rfl, rfl⟩
  · exact ⟨_, t0, t1, c, arrived, o, n, hexec.trans (congrArg Host.Outcome.next h), hgate, hfin, .inr ⟨gone, hgone, rfl⟩⟩

/-- Settles O26: the two kinds of tick. -/
theorem thresholdIsThirtyEightBitTimesRoundedUp : Obligations.ThresholdIsThirtyEightBitTimesRoundedUp :=
  fun s => ⟨silenceThreshold s.cfg, rfl, silenceThreshold_of_bitClock, fun _ => silenceThreshold_of_freeRunning⟩

/-- Settles O27: the mark, the comparison, and the examples of R187 and R189. -/
theorem markMovesTheDeadlineAndExpiredComparesWithIt : Obligations.MarkMovesTheDeadlineAndExpiredComparesWithIt := by
  refine ⟨fun _ _ => rfl, fun _ => rfl, fun s hsilence => ?_⟩
  refine ⟨?_, ?_, ?_⟩
  · rw [markSilence_deadline, hsilence]
  · simp [silenceExpired, hsilence]
  · simp [silenceExpired, hsilence]

/-- Settles O28: the gate in general, and with its answer fixed in advance. -/
theorem gateReturnsAtAnyTimeNotBeforeTheDeadline : Obligations.GateReturnsAtAnyTimeNotBeforeTheDeadline := by
  refine ⟨fun s => ?_, fun s t0 arrived gs hle hfixed => ?_⟩
  · obtain ⟨oracle, draws, late, arrived, h⟩ := silenceGate_spec s
    exact ⟨_, arrived, oracle, draws, Nat.le_add_right _ late,
      (exec_silGate s).trans (congrArg (fun t => Host.Outcome.next (setResult .unit t)) h)⟩
  · rw [exec_silGate, silenceGate_of_fixed hfixed]
    simp only [Nat.add_sub_cancel' hle]
    rfl

/-- Settles O29: `ENG.SEND` in general, and with the two answers fixed in advance. -/
theorem sendGatesWritesOnceAndMarks : Obligations.SendGatesWritesOnceAndMarks := by
  refine ⟨fun resp s => ?_, fun resp s g gs ws ticks gone arrived t0 t1 hgate h0 h1 => ?_⟩
  · obtain ⟨o, n, arrived, t0, t1, hgate, hfin, h | ⟨gone, hgone, h⟩⟩ := send_spec resp s
    · refine ⟨t0, t1, arrived, o, n, hgate, hfin, .inl ?_⟩
      rw [exec_engSend, h]
      rfl
    · refine ⟨t0, t1, arrived, o, n, hgate, hfin, .inr ⟨gone, hgone, ?_⟩⟩
      rw [exec_engSend, h]
      rfl
  · subst h0 h1
    refine ⟨fun hwrite => ?_, fun hwrite => ?_⟩
    · rw [exec_engSend, send_of_ok resp (drawWrite_silenceGate_of_fixed hgate hwrite), silenceGate_of_fixed hgate]
      rfl
    · rw [exec_engSend, send_of_fail resp (drawWrite_silenceGate_of_fixed hgate hwrite), silenceGate_of_fixed hgate]
      rfl

end Sys2Proof.Machine
end

section
/-! The statistics influence nothing (10_state.md R29, 46_slave_engine.md R205): every operation of a step commutes with replacing
them, then O53. -/

namespace Sys2Proof.Machine

/-- The state with other statistics. -/
def State.withStats (m : List (Signature × Nat)) (n : Nat) (s : State) : State := { s with stats := m, total := n }

/-- Two outcomes that differ in the statistics alone: two next states, or the same stop. -/
inductive ApartInStats : Outcome → Outcome → Prop where
  | next (t : State) (m : List (Signature × Nat)) (n : Nat) : ApartInStats (.next t) (.next (t.withStats m n))
  | refused (r : Refusal) : ApartInStats (.refused r) (.refused r)

theorem apartInStats_next {t u : State} {m : List (Signature × Nat)} {n : Nat} (h : u = t.withStats m n) :
    ApartInStats (.next t) (.next u) := h ▸ .next t m n

theorem apartInStats_of_eq {o o' : Outcome} {t : State} {m : List (Signature × Nat)} {n : Nat} (h : o = .next t)
    (h' : o' = .next (t.withStats m n)) : ApartInStats o o' := by
  rw [h, h']
  exact .next t m n

section Commute

variable (m : List (Signature × Nat)) (n : Nat)

/-! ### The answers of the outside world -/

theorem drawAvail_withStats (s : State) :
    drawAvail (s.withStats m n) = ((drawAvail s).1, (drawAvail s).2.withStats m n) := by
  cases h : s.oracle.avail with
  | nil => simp only [drawAvail, State.withStats, h]
  | cons a as => simp only [drawAvail, State.withStats, h]

theorem drawRead_withStats (s : State) :
    drawRead (s.withStats m n) = ((drawRead s).1, (drawRead s).2.withStats m n) := by
  cases h : s.oracle.read with
  | nil => simp only [drawRead, State.withStats, h]
  | cons a as => simp only [drawRead, State.withStats, h]

theorem drawGate_withStats (s : State) :
    drawGate (s.withStats m n) = ((drawGate s).1, (drawGate s).2.withStats m n) := by
  cases h : s.oracle.gate with
  | nil => simp only [drawGate, State.withStats, h]
  | cons a as => simp only [drawGate, State.withStats, h]

theorem drawWrite_withStats (s : State) :
    drawWrite (s.withStats m n) = ((drawWrite s).1, (drawWrite s).2.withStats m n) := by
  cases h : s.oracle.write with
  | nil => simp only [drawWrite, State.withStats, h]
  | cons a as => simp only [drawWrite, State.withStats, h]

/-! ### The operations of a step -/

theorem trAvail_withStats (s : State) : trAvail (s.withStats m n) = ((trAvail s).1, (trAvail s).2.withStats m n) := by
  unfold trAvail
  rw [drawAvail_withStats]
  rcases drawAvail s with ⟨_ | _, t⟩ <;> rfl

theorem trRead_withStats (k : Nat) (s : State) :
    trRead k (s.withStats m n) = ((trRead k s).1, (trRead k s).2.withStats m n) := by
  unfold trRead
  rw [drawRead_withStats]
  rcases drawRead s with ⟨_ | _, t⟩ <;> rfl

theorem readChunk_withStats (s : State) :
    readChunk (s.withStats m n) = ((readChunk s).1, (readChunk s).2.withStats m n) := by
  have havail : trAvail { s.withStats m n with running := true } = _ := trAvail_withStats m n { s with running := true }
  unfold readChunk
  rw [havail]
  rcases trAvail { s with running := true } with ⟨_ | k, t⟩
  · rfl
  · exact trRead_withStats m n k t

theorem nextRequest_withStats (s : State) : nextRequest (s.withStats m n) = (nextRequest s).withStats m n := by
  rcases nextRequest_cases s with ⟨hp, e⟩ | ⟨r, rs, hp, e⟩
  · rw [e, nextRequest_nil (s := s.withStats m n) hp]
    rfl
  · rw [e, nextRequest_cons (s := s.withStats m n) hp]
    rfl

theorem silenceGate_withStats (s : State) : silenceGate (s.withStats m n) = (silenceGate s).withStats m n := by
  unfold silenceGate
  rw [drawGate_withStats]
  rfl

theorem send_withStats (resp : List Byte) (s : State) :
    send resp (s.withStats m n) = ((send resp s).1, (send resp s).2.withStats m n) := by
  have hdraw : drawWrite (silenceGate (s.withStats m n)) = _ :=
    (congrArg drawWrite (silenceGate_withStats m n s)).trans (drawWrite_withStats m n (silenceGate s))
  rcases hw : drawWrite (silenceGate s) with ⟨_ | _, t⟩
  · rw [hw] at hdraw
    rw [send_of_ok resp hw, send_of_ok resp hdraw, silenceGate_withStats]
    rfl
  · rw [hw] at hdraw
    rw [send_of_fail resp hw, send_of_fail resp hdraw, silenceGate_withStats]
    rfl

theorem respond_withStats (resp : List Byte) (s : State) :
    respond resp (s.withStats m n) = (respond resp s).withStats m n := by
  unfold respond
  rw [send_withStats]
  rcases send resp s with ⟨_ | _, t⟩
  · rfl
  · exact nextRequest_withStats m n t

theorem assemble_withStats (address count : Word) (s : State) :
    assemble address count (s.withStats m n) = (assemble address count s).withStats m n := by
  have h : assemble address count (s.withStats m n) = (assemble address count s).reframe m n s.req s.fsm :=
    assemble_reframe m n s.req s.fsm address count s
  obtain ⟨_, _, _, _, _, hblock, -⟩ := assemble_frame address count s
  rw [h, hblock]
  rfl

theorem acceptRequest_withStats (u f : Byte) (a k : Word) (s : State) : acceptRequest u f a k (s.withStats m n) =
    (acceptRequest u f a k s).withStats (bumpStats ⟨u, f, a, k⟩ m) (n + 1) := rfl

theorem encodeNormal_withStats (u f : Byte) (regs : List Word) (s : State) :
    encodeNormal u f regs (s.withStats m n) = (encodeNormal u f regs s).withStats m n := rfl

theorem encodeException_withStats (u f e : Byte) (s : State) :
    encodeException u f e (s.withStats m n) = (encodeException u f e s).withStats m n := rfl

/-! ### A step, in each state of the engine -/

theorem exec_row_apartInStats (r : Request) (unit : Byte) (s : State) :
    ApartInStats (exec (r.row unit) s) (exec (r.row unit) (s.withStats m n)) := by
  rcases row_cases unit r with ⟨-, e⟩ | ⟨-, -, e⟩ | ⟨-, -, -, e⟩ | ⟨-, -, -, e⟩
  · rw [e]
    exact apartInStats_next (by rw [acceptRequest_withStats, nextRequest_withStats])
  · rw [e]
    exact apartInStats_next rfl
  · rw [e]
    exact apartInStats_next rfl
  · rw [e, exec_reqReadInputRegisters, exec_reqReadInputRegisters, acceptRequest_withStats, assemble_withStats]
    exact apartInStats_next rfl

theorem exec_response_apartInStats {i : Instr} {bytes : List Byte} (h : decodeResponse bytes = .ok i) (s : State) :
    ApartInStats (exec i s) (exec i (s.withStats m n)) := by
  rcases decodeResponse_cases h with ⟨u, regs, rfl, hlen, -⟩ | ⟨u, f7, rfl, -⟩ | ⟨u, rfl, -⟩
  · rw [exec_rspNormal (Nat.le_succ_of_le hlen), exec_rspNormal (Nat.le_succ_of_le hlen)]
    exact apartInStats_next (by rw [encodeNormal_withStats, respond_withStats])
  · exact apartInStats_next (by rw [encodeException_withStats, respond_withStats])
  · exact apartInStats_next (by rw [encodeException_withStats, respond_withStats])

theorem step_poll_apartInStats {s : State} {ms : List Move} (hf : s.fsm = .idle) (h : s.PollNext ms) :
    ApartInStats (step s) (step (s.withStats m n)) := by
  have hread := readChunk_withStats m n { s with world := ms }
  rcases hc : readChunk { s with world := ms } with ⟨_ | chunk, t⟩
  · rw [hc] at hread
    exact apartInStats_of_eq (step_of_readFailure hf h hc) (step_of_readFailure (t := t.withStats m n) hf h hread)
  · rw [hc] at hread
    exact apartInStats_of_eq (step_of_chunk hf h hc) (step_of_chunk (t := t.withStats m n) hf h hread)

theorem step_idle_apartInStats {s : State} (hr : s.NoReset) (hf : s.fsm = .idle) :
    ApartInStats (step s) (step (s.withStats m n)) := by
  have hf' : (s.withStats m n).fsm = .idle := hf
  cases hw : s.world with
  | nil => exact step_poll_apartInStats m n hf (.inl ⟨hw, hw⟩)
  | cons move ms =>
    have hw' : (s.withStats m n).world = move :: ms := hw
    cases move with
    | poll => exact step_poll_apartInStats m n hf (.inr hw)
    | reset => exact absurd hw (hr ms)
    | elapse k => exact apartInStats_of_eq (step_of_elapse hf hw) (step_of_elapse hf' hw')
    | arrive bs => exact apartInStats_of_eq (step_of_arrive hf hw) (step_of_arrive hf' hw')
    | writeUnitId v =>
      cases hrun : s.running with
      | true =>
        rw [step_of_lateUnitId hf hw hrun, step_of_lateUnitId hf' hw' hrun]
        exact .refused _
      | false => exact apartInStats_of_eq (step_of_writeUnitId hf hw hrun) (step_of_writeUnitId hf' hw' hrun)
    | writeSilence k =>
      cases hrun : s.running with
      | true =>
        rw [step_of_lateSilence hf hw hrun, step_of_lateSilence hf' hw' hrun]
        exact .refused _
      | false => exact apartInStats_of_eq (step_of_writeSilence hf hw hrun) (step_of_writeSilence hf' hw' hrun)

theorem step_scanning_apartInStats {s : State} (hr : s.NoReset) (hf : s.fsm = .scanning) :
    ApartInStats (step s) (step (s.withStats m n)) := by
  have hf' : (s.withStats m n).fsm = .scanning := hf
  have hr' : (s.withStats m n).NoReset := hr
  have hscan : (s.withStats m n).scan = s.scan := rfl
  cases hw : scanWindow s.scan with
  | none =>
    have hend : finishScan (s.withStats m n) = (finishScan s).withStats m n :=
      nextRequest_withStats m n (s.withScan (scanEnd s.scan))
    exact apartInStats_of_eq (step_of_no_window hr hf hw)
      ((step_of_no_window hr' hf' (hscan ▸ hw)).trans (congrArg Host.Outcome.next hend))
  | some w =>
    cases hd : decodeRequest w with
    | some r => exact apartInStats_of_eq (step_of_frame hr hf hw hd) (step_of_frame hr' hf' (hscan ▸ hw) hd)
    | none => exact apartInStats_of_eq (step_of_noise hr hf hw hd) (step_of_noise hr' hf' (hscan ▸ hw) hd)

theorem step_apartInStats (s : State) : ApartInStats (step s) (step (s.withStats m n)) := by
  by_cases hr : s.NoReset
  · have hr' : (s.withStats m n).NoReset := hr
    cases hf : s.fsm with
    | idle => exact step_idle_apartInStats m n hr hf
    | scanning => exact step_scanning_apartInStats m n hr hf
    | dispatching =>
      have hf' : (s.withStats m n).fsm = .dispatching := hf
      cases hq : s.req with
      | none =>
        exact apartInStats_of_eq (step_of_no_request hr hf hq)
          ((step_of_no_request hr' hf' hq).trans (congrArg Host.Outcome.next (nextRequest_withStats m n s)))
      | some r =>
        rw [step_of_request hr hf hq, step_of_request hr' hf' hq]
        exact exec_row_apartInStats m n r s.cfgUnitId s
    | responding =>
      have hf' : (s.withStats m n).fsm = .responding := hf
      cases hd : decodeResponse s.resp with
      | error e =>
        exact apartInStats_of_eq (step_of_no_response hr hf hd)
          ((step_of_no_response hr' hf' hd).trans (congrArg Host.Outcome.next (respond_withStats m n s.resp s)))
      | ok i =>
        rw [step_of_response hr hf hd, step_of_response hr' hf' hd]
        exact exec_response_apartInStats m n hd s
  · simp only [State.NoReset, not_forall, not_not] at hr
    obtain ⟨ms, hw⟩ := hr
    rw [step_of_reset hw, step_of_reset (s := s.withStats m n) hw]
    exact apartInStats_of_eq (m := []) (n := 0) rfl rfl

end Commute

/-- Settles O53: the two steps answer outcomes that differ in the statistics alone. -/
theorem statisticsAreNeverReadBack : Obligations.StatisticsAreNeverReadBack := by
  intro s m n
  have h : ApartInStats (step s) (step { s with stats := m, total := n }) := step_apartInStats m n s
  refine ⟨fun t ht => ?_, fun r hr => ?_⟩
  · rw [ht] at h
    generalize step { s with stats := m, total := n } = o at h ⊢
    cases h with
    | next _ m' n' => exact ⟨m', n', rfl⟩
  · rw [hr] at h
    generalize step { s with stats := m, total := n } = o at h ⊢
    cases h with
    | refused => rfl

end Sys2Proof.Machine
end

section
/-! The table form of the CRC, and the residue of a frame (40_crc16.md R103 to R107, 44_response_encoder.md R174): the loop loses
nothing, so a residue of 0 tells the CRC bytes; then O6, O7, O4, O5 and O25. -/

namespace Sys2Proof.Machine

/-! ### The table step (R105, R106) -/

theorem crcStep_zero (b : Byte) : crcStep 0 b = crcBits 8 (b.setWidth 16) :=
  congrArg (crcBits 8) BitVec.zero_xor

/-- The high half of a step's operand is only shifted, and the low half is the table's index. -/
theorem crcStep_eq_crcTstep (acc : Word) (b : Byte) : crcStep acc b = crcTstep acc b := by
  have hsplit : be16 (hi8 acc) (lo8 acc ^^^ b) = be16 (hi8 acc) 0 ^^^ (lo8 acc ^^^ b).setWidth 16 := by
    rw [word_split (be16 (hi8 acc) (lo8 acc ^^^ b)), hi8_be16, lo8_be16]
  calc crcStep acc b
      = crcBits 8 (be16 (hi8 acc) 0) ^^^ crcBits 8 ((lo8 acc ^^^ b).setWidth 16) := by
        rw [crcStep_eq_crcBits_be16, hsplit, crcBits_xor]
    _ = (acc >>> 8) ^^^ crcStep 0 (lo8 acc ^^^ b) := by
        rw [crcBits_high, ← ushiftRight_eight, crcStep_zero]
    _ = crcTstep acc b := by rw [← crcTable_getD, crcTstep]

theorem foldl_crcTstep (data : List Byte) : data.foldl crcTstep 0xFFFF = crcRaw data := by
  have hstep : crcTstep = crcStep := funext fun acc => funext fun b => (crcStep_eq_crcTstep acc b).symm
  rw [hstep]
  rfl

/-! ### The bit loop loses nothing -/

/-- The constant's top bit, which a shift never sets, shows that a bit was shifted out. -/
theorem crcShift_eq_zero {a : Word} (h : crcShift a = 0) : a = 0 := by
  unfold crcShift at h
  split at h
  case isTrue hbit =>
    have htop := congrArg (fun v : Word => v.getLsbD 15) h
    simp [crcPoly] at htop
  case isFalse hbit =>
    apply BitVec.eq_of_getLsbD_eq
    intro i hi
    cases i with
    | zero => simpa using hbit
    | succ i => simpa [Nat.add_comm 1 i] using congrArg (fun v : Word => v.getLsbD i) h

theorem crcBits_eq_zero {k : Nat} {a : Word} (h : crcBits k a = 0) : a = 0 := by
  induction k generalizing a with
  | zero => exact h
  | succ k ih => exact crcShift_eq_zero (ih h)

theorem crcBits_injective {k : Nat} {a b : Word} (h : crcBits k a = crcBits k b) : a = b := by
  have hzero : a ^^^ b = 0 := crcBits_eq_zero (k := k) ((crcBits_xor k a b).trans (BitVec.xor_eq_zero_iff.mpr h))
  exact BitVec.xor_eq_zero_iff.mp hzero

/-- Two bytes clear the accumulator only if they are its own, low byte first. -/
theorem crcStep_crcStep_eq_zero {acc : Word} {x y : Byte} : crcStep (crcStep acc x) y = 0 ↔ x = lo8 acc ∧ y = hi8 acc := by
  constructor
  · intro h
    have hsecond : crcStep acc x = crcBits 8 (be16 y 0) := by
      rw [crcBits_high]
      exact BitVec.xor_eq_zero_iff.mp (crcBits_eq_zero h)
    rw [crcStep_eq_crcBits_be16] at hsecond
    have hfirst : be16 (hi8 acc) (lo8 acc ^^^ x) = be16 y 0 := crcBits_injective hsecond
    have hhi : hi8 acc = y := by simpa using congrArg hi8 hfirst
    have hlo : lo8 acc ^^^ x = 0 := by simpa using congrArg lo8 hfirst
    exact ⟨(BitVec.xor_eq_zero_iff.mp hlo).symm, hhi.symm⟩
  · rintro ⟨rfl, rfl⟩
    exact crcStep_lo_hi acc

/-- R107 b, both ways: the residue is 0 exactly if the two last bytes are the CRC of the others. -/
theorem crcRaw_append_eq_zero {body : List Byte} {x y : Byte} : crcRaw (body ++ [x, y]) = 0 ↔ crcWire body = [x, y] := by
  rw [crcRaw_append, crcWire_eq, List.foldl_cons, List.foldl_cons, List.foldl_nil, crcStep_crcStep_eq_zero]
  constructor
  · rintro ⟨rfl, rfl⟩
    rfl
  · intro h
    obtain ⟨hx, htail⟩ := List.cons.inj h
    exact ⟨hx.symm, (List.cons.inj htail).1.symm⟩

theorem crcRaw_append_crcWire (body : List Byte) : crcRaw (body ++ crcWire body) = 0 := by
  rw [crcWire_eq]
  exact crcRaw_append_eq_zero.mpr (crcWire_eq body)

/-! ### Frames -/

theorem decodeRequest_ne_none_iff {u f aHi aLo nHi nLo c6 c7 : Byte} :
    decodeRequest [u, f, aHi, aLo, nHi, nLo, c6, c7] ≠ none ↔ crcWire [u, f, aHi, aLo, nHi, nLo] = [c6, c7] := by
  have hbody : requestBody u f (be16 aHi aLo) (be16 nHi nLo) = [u, f, aHi, aLo, nHi, nLo] := by simp [requestBody]
  have h := decodeRequest_requestBody_append u f (be16 aHi aLo) (be16 nHi nLo) c6 c7
  rw [hbody] at h
  exact (not_congr h).trans not_not

/-- A condition on 8-byte windows, tested where it matters (R144). -/
theorem decodeRequest_ne_none_iff_of_windows {P : List Byte → Prop}
    (h : ∀ u f aHi aLo nHi nLo c6 c7 : Byte,
      P [u, f, aHi, aLo, nHi, nLo, c6, c7] ↔ crcWire [u, f, aHi, aLo, nHi, nLo] = [c6, c7]) (w : List Byte) :
    decodeRequest w ≠ none ↔ w.length = 8 ∧ P w := by
  by_cases hlen : w.length = 8
  · obtain ⟨u, f, aHi, aLo, nHi, nLo, c6, c7, rfl⟩ := eq_of_length_eight hlen
    rw [decodeRequest_ne_none_iff, h]
    exact (and_iff_right hlen).symm
  · exact iff_of_false (not_not.mpr (decodeRequest_of_length_ne hlen)) (fun hw => hlen hw.1)

/-! ### The obligations -/

/-- Settles O6: the high half is only shifted, and the low half is the table's index. -/
theorem tableStepAndBitLoopAreBitIdentical : Obligations.TableStepAndBitLoopAreBitIdentical := by
  refine ⟨fun _ _ _ => rfl, fun acc b s => ?_, fun data => ⟨foldl_crcTstep data, ?_, fun expected => ?_⟩⟩
  · show execCrcTstep acc b s = _
    rw [execCrcTstep, ← crcStep_eq_crcTstep, exec_crcStep]
  · rw [foldl_crcTstep, crcCompute]
  · rw [foldl_crcTstep, crcVerify, crcCompute]

/-- Settles O7: `crc_ok` and the residue are the same test on 8 bytes, because the bit loop is injective. -/
theorem framesAreExactlyTheWindowsOfZeroResidue : Obligations.FramesAreExactlyTheWindowsOfZeroResidue := by
  refine ⟨fun data => crcRaw_append_eq_zero.mpr (crcWire_eq data), ?_, ?_⟩
  · exact decodeRequest_ne_none_iff_of_windows fun u f aHi aLo nHi nLo c6 c7 =>
      crcVerify_be16 [u, f, aHi, aLo, nHi, nLo] c6 c7
  · exact decodeRequest_ne_none_iff_of_windows fun u f aHi aLo nHi nLo c6 c7 =>
      crcRaw_append_eq_zero (body := [u, f, aHi, aLo, nHi, nLo])

/-- Settles O4: the comparison by definition, and the examples of R103. -/
theorem crcVerifyComparesWithCompute : Obligations.CrcVerifyComparesWithCompute :=
  ⟨fun _ _ _ => rfl, by decide +kernel, by decide +kernel, by decide +kernel⟩

/-- Settles O5: an entry is a step from 0, which is eight iterations on the index. -/
theorem crcTableIsTheBitLoopOnEveryIndex : Obligations.CrcTableIsTheBitLoopOnEveryIndex := by
  have hlength : crcTable.length = 256 := by decide +kernel
  refine ⟨crcTable, fun _ => rfl, hlength, fun b => ?_, by decide +kernel, by decide +kernel, by decide +kernel,
    by decide +kernel, by decide +kernel⟩
  have hentry : crcTable.getD b.toNat 0 = crcShift^[8] (b.setWidth 16) := by
    rw [crcTable_getD, crcStep_zero, crcBits_eq_iterate]
  have hindex : b.toNat < crcTable.length := hlength ▸ b.isLt
  rw [List.getD_eq_getElem _ _ hindex] at hentry
  exact (List.getElem?_eq_getElem hindex).trans (congrArg some hentry)

/-- Settles O25: both frames end in the CRC bytes of what is before them; the exception's function byte bit by bit. -/
theorem everyResponseHasZeroResidueAndExceptionsSetBitSeven :
    Obligations.EveryResponseHasZeroResidueAndExceptionsSetBitSeven := by
  have hfunction : ∀ f : Byte, (f ||| 0x80).getLsbD 7 = true ∧ (f ||| 0x80).setWidth 7 = f.setWidth 7 ∧
      (0x80 ≤ f → f ||| 0x80 = f) := by decide
  refine ⟨fun u f regs s t h => ?_, fun u f e s t h => ?_⟩
  · by_cases hmax : regs.length ≤ maxEncodable
    · rw [exec_encNormal hmax] at h
      cases h
      exact crcRaw_append_crcWire _
    · have hrefused : exec (.encNormal u f regs) s = .refused .tooManyRegisters := if_pos (Nat.lt_of_not_le hmax)
      rw [hrefused] at h
      cases h
  · rw [exec_encException] at h
    cases h
    exact ⟨crcRaw_append_crcWire _, rfl, hfunction f⟩

end Sys2Proof.Machine
end

section
/-! The Slave Engine's small operations and the rows that take an exception (46_slave_engine.md R201 to R208, 60_exceptions.md R231
to R238, 70_reset_and_hazards.md R261); then O30, O23, O32, O33, O34, O36, O37 and O38. -/

namespace Sys2Proof.Machine

/-- U16: the stop of both places that would encode more than 127 registers. -/
theorem exec_of_tooManyRegisters {regs : List Word} (h : maxEncodable < regs.length) (u f : Byte) (s : State) :
    exec (.encNormal u f regs) s = .refused .tooManyRegisters ∧ exec (.rspNormal u regs) s = .refused .tooManyRegisters :=
  ⟨if_pos h, if_pos h⟩

theorem exec_engPoll_of_busy {s : State} (h : s.fsm ≠ .idle) : exec .engPoll s = .refused .pollInProgress := if_neg h

theorem exec_reqForeign (u f : Byte) (a n : Word) (s : State) :
    exec (.reqForeign u f a n) s = .next (nextRequest (acceptRequest u f a n s)) := rfl

theorem exec_reqUnsupportedFunction (u f : Byte) (a n : Word) (s : State) : exec (.reqUnsupportedFunction u f a n) s =
    .next (raiseException excIllegalFunction u f (acceptRequest u f a n s)) := rfl

theorem exec_reqCountTooLarge (u : Byte) (a n : Word) (s : State) : exec (.reqCountTooLarge u a n) s =
    .next (raiseException excIllegalDataValue u fnReadInput (acceptRequest u fnReadInput a n s)) := rfl

/-- R231, R232, R241: an exception is a response of five bytes in TXBUF, and the engine in `Responding`. -/
theorem raiseException_eq (code u f : Byte) (s : State) : raiseException code u f s = { s with
    resp := exceptionBody u f code ++ [lo8 (crcRaw (exceptionBody u f code)), hi8 (crcRaw (exceptionBody u f code))],
    crc := crcRaw (exceptionBody u f code), fsm := .responding } := by
  rw [← exceptionFrame_eq]
  rfl

/-! ### The obligations -/

/-- Settles O30: the map stays canonical and one count grows. -/
theorem statisticsCountEveryRequestOnce : Obligations.StatisticsCountEveryRequestOnce := fun r s hwf =>
  ⟨bumpStats (signatureOf r) s.stats, rfl, (bumpStats_wf _ _ hwf).1, fun k => statsCount_bumpStats _ k _ hwf⟩

/-- Settles O23: the two refusals, and what 127 registers lead to. -/
theorem oversizedBlocksAndNestedPollsAreRefused : Obligations.OversizedBlocksAndNestedPollsAreRefused :=
  ⟨fun u f _ s hmax => exec_of_tooManyRegisters hmax u f s,
    fun u f _ s hmax => ⟨⟨_, exec_encNormal hmax u f s⟩, _, exec_rspNormal hmax u s⟩,
    fun _ hbusy => exec_engPoll_of_busy hbusy⟩

/-- Settles O32: the flush, and what is abandoned with it. -/
theorem transportFailureAbandonsTheRequest : Obligations.TransportFailureAbandonsTheRequest :=
  fun side s => exec_engXfail side s

/-- Settles O33: the fields of `powerOnReset`. -/
theorem powerOnResetKeepsNothingOfTheBlock : Obligations.PowerOnResetKeepsNothingOfTheBlock := fun s =>
  ⟨powerOnReset s, rfl, rfl, rfl, rfl, rfl, rfl, rfl, rfl, rfl, rfl, rfl, rfl, rfl, rfl, rfl, rfl, rfl⟩

/-- Settles O34: the fields of `State.reset`. -/
theorem resetStateHasTheSpecsValues : Obligations.ResetStateHasTheSpecsValues :=
  ⟨rfl, rfl, rfl, rfl, rfl, rfl, rfl, rfl, rfl, rfl, rfl, rfl, rfl⟩

/-- Settles O36: the Request is counted, and the engine returns from it. -/
theorem foreignRequestIsCountedAndIgnored : Obligations.ForeignRequestIsCountedAndIgnored := by
  refine fun u f a n s => ⟨_, rfl, fun hp => ?_, fun r rs hp => ?_⟩
  · rw [exec_reqForeign, nextRequest_nil (s := acceptRequest u f a n s) hp]
    rfl
  · rw [exec_reqForeign, nextRequest_cons (s := acceptRequest u f a n s) hp]
    rfl

/-- Settles O37: the exception 0x01, with the function byte of the request. -/
theorem unsupportedFunctionTakesException01 : Obligations.UnsupportedFunctionTakesException01 := by
  intro u f a n s
  rw [exec_reqUnsupportedFunction, raiseException_eq]
  rfl

/-- Settles O38: the exception 0x03, with the function byte 0x84. -/
theorem oversizedCountTakesException03 : Obligations.OversizedCountTakesException03 := by
  intro u a n s
  rw [exec_reqCountTooLarge, raiseException_eq]
  rfl

end Sys2Proof.Machine
end
